-- ==== Sys2Proof/Word.lean ====
section
/-! DEFINITION. Word types: the 16-bit bus word and the 32-bit register value (R7), and how a pair of words spells a value. -/

namespace Sys2Proof

/-- A bus word: "a 16-bit unit of bus addressing" (R7, WLEN = 16). -/
abbrev Word := BitVec 16

/-- A register value: 32 bits (R7, XLEN = 32); read as a natural number it is a `U32` (R9). -/
abbrev Raw := BitVec 32

/-- A word pair in the one order of every interface, `(lowWord, highWord)` (R53, R126). -/
structure WordPair where
  lo : Word
  hi : Word
deriving DecidableEq, Repr

end Sys2Proof
end

