-- ==== Sys2Proof/Config.lean ====
section
/-! DEFINITION. Domain types of the register table, the configuration parameters (R7, R21), and the free values: constants without a body of which nothing can be proved. -/

namespace Sys2Proof

/-- The integer kind under a codec (R13). -/
inductive Kind where
  | unsigned32
  | signed32
deriving DecidableEq, Repr

/-- The closed set of operating modes (R27). -/
inductive Mode where
  | passive
  | velocity
  | position
  | stop
deriving DecidableEq, Repr

/-- The five codec tags (R26). `bitfield` is `Bitfield{32}`; 32 is the only width (C8, D23). -/
inductive Codec where
  | rawUnsigned
  | rawSigned
  | scaled (k : Rat) (kind : Kind)
  | mode
  | bitfield
deriving DecidableEq, Repr

/-- A Register stores a number, a name and a codec tag, nothing else (R22). The tag is `RawUnsigned` where the table
gives no other (R26, R99). -/
structure Register where
  num   : Nat
  name  : String
  codec : Codec := .rawUnsigned
deriving DecidableEq, Repr

/-- A physical value. Under exact numerics only `finite` exists (R13, D29); under binary64 a caller can also present an
infinity or a not-a-number, which is refused (R149). -/
inductive Phys where
  | finite (q : Rat)
  | posInf
  | negInf
  | nan
deriving DecidableEq, Repr

/-- The typed values (R13). A `bits` value may be given with any length, so that a wrong length can be refused (R95). -/
inductive Value where
  | uint (n : Int)
  | sint (n : Int)
  | phys (p : Phys)
  | mode (m : Mode)
  | bits (b : List Bool)
deriving DecidableEq, Repr

/-- `NUMERICS` (R149, D5). -/
inductive Numerics where
  | exact
  | binary64
deriving DecidableEq, Repr

/-- `ROUND_TIE` (R10, D6). -/
inductive RoundTie where
  | halfEven
  | halfAway
  | halfUp
deriving DecidableEq, Repr

/-- `ODD_PAIR_POLICY` (R56, D16). -/
inductive OddPairPolicy where
  | refuse
  | alias_
deriving DecidableEq, Repr

/-- `ON_ERROR` (R97, D22). -/
inductive OnError where
  | abort
  | continue_
deriving DecidableEq, Repr

/-- Where `WRITEWORDS` checks its word operands against U16: before or after the port's address check. The spec gives both
refusals and not their order (R186, R216): the model's own parameter, DESIGN CHOICE, log 14. -/
inductive WordCheck where
  | beforeAddressCheck
  | afterAddressCheck
deriving DecidableEq, Repr

/-- The configuration: parameters of the step relation, fixed before the first transaction (R21). -/
structure Config where
  table     : List Register
  numerics  : Numerics
  roundTie  : RoundTie
  oddPair   : OddPairPolicy
  onError   : OnError
  volatiles : List Nat
  wordCheck : WordCheck
deriving DecidableEq, Repr

/-- `RESET` (R36, D13): the value of the cell of register number `n` after reset. FREE VALUE: the spec quantifies over it
and forbids to assume zero. DESIGN CHOICE to hold it as a constant without a body, one for every run, log 3; unsafe where a
claim compares two runs. -/
opaque Config.resetValue : Nat → Raw

/-- FREE VALUE: the physical value `DEC.SCALED` gives for a scale factor `k ≤ 0`, which R140 places outside its operand
domain without stating a result; a function of `k` and the raw integer. DESIGN CHOICE, log 10; safe. -/
opaque Config.physOfNonPositiveFactor : Rat → Int → Rat

/-- FREE VALUE: the count `ENC.SCALED` packs for a scale factor `k ≤ 0`, likewise outside the domain of R141; a function
of `k` and the physical value. DESIGN CHOICE, log 10; safe. -/
opaque Config.countOfNonPositiveFactor : Rat → Rat → Int

/-- FREE VALUE: the count `ENC.SCALED` packs under binary64 when the product of the two doubles is no finite number, so
that `round` has nothing to round (R149 states no result); a function of `k` and the physical value. DESIGN CHOICE,
log 12; safe. -/
opaque Config.countOfNonFiniteProduct : Rat → Rat → Int

end Sys2Proof
end

