-- ==== Sys2Proof/Machine/Numerics.lean ====
section
/-! DEFINITION. Arithmetic primitives: wrapping and signed reading of 32-bit values (R10), rounding with its tie rule (R10, D6), and correctly rounded binary64 results for the alternative numerics (R149). -/

namespace Sys2Proof.Machine

/-- `wrap32(v) = v mod 2^32` (R10, R127). -/
def wrap32 (v : Int) : Raw := BitVec.ofInt 32 v

/-- `tosigned32(u)`: the two's complement reading (R10, D3). -/
def toSigned32 (u : Raw) : Int := u.toInt

/-- A 32-bit value read by its kind (R87). -/
def readRaw (kind : Kind) (u : Raw) : Int :=
  match kind with
  | .unsigned32 => u.toNat
  | .signed32   => toSigned32 u

/-- `round(q)`: the nearest integer, an exact tie going by `ROUND_TIE` (R10). -/
def roundTie (tie : RoundTie) (q : Rat) : Int :=
  let f := q.floor
  let d := q - f
  if d < 1 / 2 then f
  else if 1 / 2 < d then f + 1
  else
    match tie with
    | .halfEven => if f % 2 = 0 then f else f + 1
    | .halfAway => if q < 0 then f else f + 1
    | .halfUp   => f + 1

/-- `2^e` as a rational. -/
def pow2 : Int → Rat
  | .ofNat k   => ((2 ^ k : Nat) : Rat)
  | .negSucc k => 1 / ((2 ^ (k + 1) : Nat) : Rat)

/-- The binary exponent of a non-zero rational: the greatest `e` with `2^e ≤ |q|`. -/
def binaryExponent (q : Rat) : Int :=
  let e : Int := (Nat.log2 q.num.natAbs : Int) - (Nat.log2 q.den : Int)
  if |q| < pow2 e then e - 1 else e

/-- The nearest IEEE 754 double of a rational, ties to even, subnormals included; beyond the largest double an infinity.
PRESUMED (G5, log 11). The sign of a zero is not represented. -/
def toDouble (q : Rat) : Phys :=
  if q = 0 then .finite 0
  else
    let ulp := pow2 (max (binaryExponent q) (-1022) - 52)
    let y   := (roundTie .halfEven (q / ulp) : Rat) * ulp
    if pow2 1024 ≤ |y| then (if 0 < q then .posInf else .negInf) else .finite y

/-- One correctly rounded division of an exact integer by a double that is not negative (R149). -/
def divDouble (n : Int) : Phys → Phys
  | .finite d => if d = 0 then (if n = 0 then .nan else if 0 < n then .posInf else .negInf) else toDouble (n / d)
  | .posInf   => .finite 0
  | .negInf   => .finite 0
  | .nan      => .nan

/-- One correctly rounded multiplication of a finite double by a double that is not negative (R149). -/
def mulDouble (x : Rat) : Phys → Phys
  | .finite d => toDouble (x * d)
  | .posInf   => if x = 0 then .nan else if 0 < x then .posInf else .negInf
  | .negInf   => if x = 0 then .nan else if 0 < x then .negInf else .posInf
  | .nan      => .nan

end Sys2Proof.Machine
end

