-- ==== Sys2Proof/Syntax.lean ====
section
/-! DEFINITION. The operations: one constructor per row of spec/opcode_table.json, each with its typed operands (R80, R90). -/

namespace Sys2Proof

/-- The operation set (R90). A word operand (`lo`, `hi`) and the operands of `EXPLODE` are integers, so that a value
outside their domain can be presented and refused (R95). -/
inductive Instr where
  /-- `EXPLODE x, n` (R110). -/
  | explode (x n : Int)
  /-- `IMPLODE bits` (R111). -/
  | implode (bits : List Bool)
  /-- `TOWORDS.U v` (R120). -/
  | toWordsU (v : Int)
  /-- `TOWORDS.S v` (R121). -/
  | toWordsS (v : Int)
  /-- `FROMWORDS.U lo, hi` (R122). -/
  | fromWordsU (lo hi : Int)
  /-- `FROMWORDS.S lo, hi` (R123). -/
  | fromWordsS (lo hi : Int)
  /-- `DEC.RAWU lo, hi` (R136). -/
  | decRawU (lo hi : Int)
  /-- `ENC.RAWU UIntV(n)` (R137). -/
  | encRawU (n : Int)
  /-- `DEC.RAWS lo, hi` (R138). -/
  | decRawS (lo hi : Int)
  /-- `ENC.RAWS SIntV(n)` (R139). -/
  | encRawS (n : Int)
  /-- `DEC.SCALED k, kind, lo, hi` (R140). -/
  | decScaled (k : Rat) (kind : Kind) (lo hi : Int)
  /-- `ENC.SCALED k, kind, PhysV(p)` (R141). -/
  | encScaled (k : Rat) (kind : Kind) (p : Phys)
  /-- `DEC.MODE lo, hi` (R145). -/
  | decMode (lo hi : Int)
  /-- `ENC.MODE ModeV(m)` (R146). -/
  | encMode (m : Mode)
  /-- `DEC.BITS lo, hi` (R147). -/
  | decBits (lo hi : Int)
  /-- `ENC.BITS BitsV(b)` (R148). -/
  | encBits (b : List Bool)
  /-- `DECODE r, lo, hi` (R160). -/
  | decode (r : Register) (lo hi : Int)
  /-- `ENCODE r, v` (R161). -/
  | encode (r : Register) (v : Value)
  /-- `ADDR r` (R170). -/
  | addr (r : Register)
  /-- `RESOLVE.NAME name` (R171). -/
  | resolveName (name : String)
  /-- `RESOLVE.ADDR a` (R172). -/
  | resolveAddr (a : Int)
  /-- `RESOLVE.NUM n` (R173). -/
  | resolveNum (n : Int)
  /-- `READWORDS a` (R185). -/
  | readWords (a : Int)
  /-- `WRITEWORDS a, lo, hi` (R186). -/
  | writeWords (a lo hi : Int)
  /-- `CSRREAD.NAME name` (R187). -/
  | csrReadName (name : String)
  /-- `CSRWRITE.NAME name, v` (R188). -/
  | csrWriteName (name : String) (v : Value)
  /-- `CSRREAD.ADDR a` (R189). -/
  | csrReadAddr (a : Int)
  /-- `CSRWRITE.ADDR a, v` (R190). -/
  | csrWriteAddr (a : Int) (v : Value)
  /-- `CSRREAD.NUM n` (R191). -/
  | csrReadNum (n : Int)
  /-- `CSRWRITE.NUM n, v` (R192). -/
  | csrWriteNum (n : Int) (v : Value)
deriving DecidableEq, Repr

end Sys2Proof
end

