-- ==== Sys2Proof/WellFormed.lean ====
section
/-! DEFINITION. Well-formed operations: every operand inside the domain its rule gives it. A conforming caller sends only these (R95, R214). Integer ranges that the spec leaves to the caller but gives a meaning outside (R120, R137: wrap) are no part of it. -/

namespace Sys2Proof

/-- A word operand inside U16 (R9, R95). -/
def isWord (w : Int) : Bool := decide (0 ≤ w) && decide (w ≤ 65535)

/-- The scale factor of a tag, if it has one, is positive (R140: `k : Rat`, `k > 0`). -/
def Codec.wellFormed : Codec → Bool
  | .scaled k _ => decide (0 < k)
  | _           => true

/-- A physical value that is a number (R13, D29). -/
def Phys.isFinite : Phys → Bool
  | .finite _ => true
  | _         => false

/-- A typed value inside its type: a flag set has 32 positions (R9, R95), a physical value is a number (R149). -/
def Value.wellFormed : Value → Bool
  | .bits b => b.length == 32
  | .phys p => p.isFinite
  | _       => true

/-- The value's tag fits the codec's tag (R161). -/
def Value.fits : Value → Codec → Bool
  | .uint _, .rawUnsigned => true
  | .sint _, .rawSigned   => true
  | .phys _, .scaled _ _  => true
  | .mode _, .mode        => true
  | .bits _, .bitfield    => true
  | _,       _            => false

/-- Every operand lies in the domain its rule states (R95, R110, R140, R141, R148, R161). -/
def Instr.wellFormed : Instr → Bool
  | .explode x n           => decide (0 ≤ n) && decide (0 ≤ x) && decide (x < 2 ^ n.toNat)
  | .implode _             => true
  | .toWordsU _            => true
  | .toWordsS _            => true
  | .fromWordsU lo hi      => isWord lo && isWord hi
  | .fromWordsS lo hi      => isWord lo && isWord hi
  | .decRawU lo hi         => isWord lo && isWord hi
  | .encRawU _             => true
  | .decRawS lo hi         => isWord lo && isWord hi
  | .encRawS _             => true
  | .decScaled k _ lo hi   => decide (0 < k) && isWord lo && isWord hi
  | .encScaled k _ p       => decide (0 < k) && p.isFinite
  | .decMode lo hi         => isWord lo && isWord hi
  | .encMode _             => true
  | .decBits lo hi         => isWord lo && isWord hi
  | .encBits b             => b.length == 32
  | .decode r lo hi        => r.codec.wellFormed && isWord lo && isWord hi
  | .encode r v            => r.codec.wellFormed && v.wellFormed && v.fits r.codec
  | .addr _                => true
  | .resolveName _         => true
  | .resolveAddr _         => true
  | .resolveNum _          => true
  | .readWords _           => true
  | .writeWords _ lo hi    => isWord lo && isWord hi
  | .csrReadName _         => true
  | .csrWriteName _ v      => v.wellFormed
  | .csrReadAddr _         => true
  | .csrWriteAddr _ v      => v.wellFormed
  | .csrReadNum _          => true
  | .csrWriteNum _ v       => v.wellFormed

end Sys2Proof
end

