-- ==== Sys2Proof/Decode.lean ====
section
/-! DEFINITION. Format `OP8` (R80): an opcode byte and the operand ports beside it; the decoder by the opcode map (R91), total, rejecting a reserved opcode by name (R92); then the encoder. -/

namespace Sys2Proof

/-- The named operand ports of a transaction (R80). Ports have no bit positions; an operation reads the ports that its row
of R90 lists and no other. The port `v` of the table has one field per type it carries there. DESIGN CHOICE, log 1. -/
structure OperandPorts where
  x      : Int
  n      : Int
  bits   : List Bool
  /-- `v` of `TOWORDS.*`; the integer in `UIntV` and `SIntV` for `ENC.RAWU` and `ENC.RAWS`. -/
  vInt   : Int
  /-- the physical value in `PhysV` for `ENC.SCALED`. -/
  vPhys  : Phys
  /-- the mode in `ModeV` for `ENC.MODE`. -/
  vMode  : Mode
  /-- the sequence in `BitsV` for `ENC.BITS`. -/
  vBits  : List Bool
  /-- `v : Value` of `ENCODE` and `CSRWRITE.*`. -/
  vValue : Value
  lo     : Int
  hi     : Int
  k      : Rat
  kind   : Kind
  r      : Register
  name   : String
  a      : Int
deriving DecidableEq, Repr

/-- Ports that carry nothing: zero and empty, and the factor 1 on `k`, a port that carries positive factors only. -/
def OperandPorts.idle : OperandPorts :=
  { x := 0, n := 0, bits := [], vInt := 0, vPhys := .finite 0, vMode := .passive, vBits := [], vValue := .uint 0,
    lo := 0, hi := 0, k := 1, kind := .unsigned32, r := { num := 0, name := "" }, name := "", a := 0 }

/-- A transaction in format `OP8` (R80): `op[7:0]` and the ports. -/
structure Transaction where
  op    : BitVec 8
  ports : OperandPorts
deriving DecidableEq, Repr

/-- Why a transaction has no operation: its opcode is none of R91 (R92, `refused(ReservedOpcode)`). -/
inductive DecodeError where
  | reservedOpcode (op : BitVec 8)
deriving DecidableEq, Repr

/-- The opcode map (R91), by the opcode read as a number; `none` for the 226 reserved opcodes (R92). "the opcode alone
tells which operands follow" (R80). -/
def operationAt (op : Nat) (p : OperandPorts) : Option Instr :=
  match op with
  | 0x01 => some (.explode p.x p.n)
  | 0x02 => some (.implode p.bits)
  | 0x10 => some (.toWordsU p.vInt)
  | 0x11 => some (.toWordsS p.vInt)
  | 0x12 => some (.fromWordsU p.lo p.hi)
  | 0x13 => some (.fromWordsS p.lo p.hi)
  | 0x20 => some (.decRawU p.lo p.hi)
  | 0x21 => some (.encRawU p.vInt)
  | 0x22 => some (.decRawS p.lo p.hi)
  | 0x23 => some (.encRawS p.vInt)
  | 0x24 => some (.decScaled p.k p.kind p.lo p.hi)
  | 0x25 => some (.encScaled p.k p.kind p.vPhys)
  | 0x26 => some (.decMode p.lo p.hi)
  | 0x27 => some (.encMode p.vMode)
  | 0x28 => some (.decBits p.lo p.hi)
  | 0x29 => some (.encBits p.vBits)
  | 0x2E => some (.decode p.r p.lo p.hi)
  | 0x2F => some (.encode p.r p.vValue)
  | 0x30 => some (.addr p.r)
  | 0x31 => some (.resolveName p.name)
  | 0x32 => some (.resolveAddr p.a)
  | 0x33 => some (.resolveNum p.n)
  | 0x40 => some (.readWords p.a)
  | 0x41 => some (.writeWords p.a p.lo p.hi)
  | 0x48 => some (.csrReadName p.name)
  | 0x49 => some (.csrWriteName p.name p.vValue)
  | 0x4A => some (.csrReadAddr p.a)
  | 0x4B => some (.csrWriteAddr p.a p.vValue)
  | 0x4C => some (.csrReadNum p.n)
  | 0x4D => some (.csrWriteNum p.n p.vValue)
  | _    => none

/-- The decoder: the operation a transaction names, or the reserved opcode it carries (R91, R92). -/
def decode (t : Transaction) : Except DecodeError Instr :=
  match operationAt t.op.toNat t.ports with
  | some i => .ok i
  | none   => .error (.reservedOpcode t.op)

/-- The operation of an opcode-table row: the opcode byte `w`, every port idle (a port has no bits, R80). -/
def decodeTableWord (nbits w : Nat) : Option Instr :=
  if nbits = 8 ∧ w < 256 then
    match decode { op := BitVec.ofNat 8 w, ports := .idle } with
    | .ok i    => some i
    | .error _ => none
  else none

/-- The opcode of an operation (R91). -/
def Instr.opcode : Instr → BitVec 8
  | .explode _ _         => 0x01
  | .implode _           => 0x02
  | .toWordsU _          => 0x10
  | .toWordsS _          => 0x11
  | .fromWordsU _ _      => 0x12
  | .fromWordsS _ _      => 0x13
  | .decRawU _ _         => 0x20
  | .encRawU _           => 0x21
  | .decRawS _ _         => 0x22
  | .encRawS _           => 0x23
  | .decScaled _ _ _ _   => 0x24
  | .encScaled _ _ _     => 0x25
  | .decMode _ _         => 0x26
  | .encMode _           => 0x27
  | .decBits _ _         => 0x28
  | .encBits _           => 0x29
  | .decode _ _ _        => 0x2E
  | .encode _ _          => 0x2F
  | .addr _              => 0x30
  | .resolveName _       => 0x31
  | .resolveAddr _       => 0x32
  | .resolveNum _        => 0x33
  | .readWords _         => 0x40
  | .writeWords _ _ _    => 0x41
  | .csrReadName _       => 0x48
  | .csrWriteName _ _    => 0x49
  | .csrReadAddr _       => 0x4A
  | .csrWriteAddr _ _    => 0x4B
  | .csrReadNum _        => 0x4C
  | .csrWriteNum _ _     => 0x4D

/-- The ports of an operation: its operands on the ports R90 names, the others idle. -/
def Instr.ports : Instr → OperandPorts
  | .explode x n           => { OperandPorts.idle with x := x, n := n }
  | .implode bits          => { OperandPorts.idle with bits := bits }
  | .toWordsU v            => { OperandPorts.idle with vInt := v }
  | .toWordsS v            => { OperandPorts.idle with vInt := v }
  | .fromWordsU lo hi      => { OperandPorts.idle with lo := lo, hi := hi }
  | .fromWordsS lo hi      => { OperandPorts.idle with lo := lo, hi := hi }
  | .decRawU lo hi         => { OperandPorts.idle with lo := lo, hi := hi }
  | .encRawU n             => { OperandPorts.idle with vInt := n }
  | .decRawS lo hi         => { OperandPorts.idle with lo := lo, hi := hi }
  | .encRawS n             => { OperandPorts.idle with vInt := n }
  | .decScaled k kind lo hi => { OperandPorts.idle with k := k, kind := kind, lo := lo, hi := hi }
  | .encScaled k kind p    => { OperandPorts.idle with k := k, kind := kind, vPhys := p }
  | .decMode lo hi         => { OperandPorts.idle with lo := lo, hi := hi }
  | .encMode m             => { OperandPorts.idle with vMode := m }
  | .decBits lo hi         => { OperandPorts.idle with lo := lo, hi := hi }
  | .encBits b             => { OperandPorts.idle with vBits := b }
  | .decode r lo hi        => { OperandPorts.idle with r := r, lo := lo, hi := hi }
  | .encode r v            => { OperandPorts.idle with r := r, vValue := v }
  | .addr r                => { OperandPorts.idle with r := r }
  | .resolveName name      => { OperandPorts.idle with name := name }
  | .resolveAddr a         => { OperandPorts.idle with a := a }
  | .resolveNum n          => { OperandPorts.idle with n := n }
  | .readWords a           => { OperandPorts.idle with a := a }
  | .writeWords a lo hi    => { OperandPorts.idle with a := a, lo := lo, hi := hi }
  | .csrReadName name      => { OperandPorts.idle with name := name }
  | .csrWriteName name v   => { OperandPorts.idle with name := name, vValue := v }
  | .csrReadAddr a         => { OperandPorts.idle with a := a }
  | .csrWriteAddr a v      => { OperandPorts.idle with a := a, vValue := v }
  | .csrReadNum n          => { OperandPorts.idle with n := n }
  | .csrWriteNum n v       => { OperandPorts.idle with n := n, vValue := v }

/-- The encoder: the transaction of an operation (R80, R91). -/
def encode (i : Instr) : Transaction := { op := i.opcode, ports := i.ports }

end Sys2Proof
end

