-- ==== Sys2Proof/Machine/Table.lean ====
section
/-! DEFINITION. The register table: its invariant (R24), what any table must satisfy (R25), the spec's fixture table (R29), and the configuration the machine is reset with. -/

namespace Sys2Proof.Machine

/-- `WF(TABLE)` (R24): numbers strictly ascending, names pairwise different. (`num ≥ 0` holds by its type.) -/
def tableWf (T : List Register) : Bool :=
  decide (T.Pairwise fun r r' => r.num < r'.num ∧ r.name ≠ r'.name)

/-- The number `n` has an entry in the table. -/
def hasNum (T : List Register) (n : Nat) : Bool := T.any fun r => r.num == n

/-- The codec R25 requires of number 198: `Scaled` over `unsigned32`, decoding raw 1000 to 888. -/
def isBusVoltageCodec : Codec → Bool
  | .scaled k .unsigned32 => decide (1000 / k = 888)
  | _                     => false

/-- The rows of `KNOWN(TABLE)` (R25) that name numbers, names and tags: every row but the length. -/
def tableKnownRows (T : List Register) : Bool :=
  (T.all fun r => decide (1 ≤ r.num) && decide (r.num ≤ 231))
  && hasNum T 1 && hasNum T 231 && hasNum T 149
  && !hasNum T 150 && !hasNum T 151 && !hasNum T 152 && !hasNum T 153 && !hasNum T 154
  && hasNum T 155
  && (T.any fun r => r.num == 198 && r.name == "U_BUS" && isBusVoltageCodec r.codec)
  && (T.any fun r => r.name == "MODE_REG" && r.codec == .mode)

/-- The last row of `KNOWN(TABLE)` (R25): the length is "~180". The spec states no tolerance, so it is an argument: DESIGN
CHOICE, log 21. -/
def lengthIsAbout180 (tolerance : Nat) (T : List Register) : Bool :=
  decide (180 ≤ T.length + tolerance) && decide (T.length ≤ 180 + tolerance)

/-- `KNOWN(TABLE)` (R25), all its rows. -/
def tableKnown (tolerance : Nat) (T : List Register) : Bool := tableKnownRows T && lengthIsAbout180 tolerance T

/-- `MODE_REG_NUM` (R25, D11): the number of the Register named `MODE_REG`. -/
def modeRegNum (T : List Register) : Option Nat := (T.find? fun r => r.name == "MODE_REG").map (·.num)

/-- The scale factors of R142, as the exact rationals the document's literals spell; `U_BUS` by R143. -/
def velocityFactor : Rat := 8658 / 3125
def accelerationFactor : Rat := 3598133 / 1000000000
def torqueFactor : Rat := 341
def busVoltageFactor : Rat := 125 / 111

/-- `TABLE_FIX` (R29): it has every row of `KNOWN` but the length, a fixture that claims nothing about the controller's real list. `MODE_REG` at number 2 is PRESUMED
(G2), log 17. -/
def tableFix : List Register :=
  [ { num := 1,   name := "FIX_001" },
    { num := 2,   name := "MODE_REG",  codec := .mode },
    { num := 5,   name := "FIX_VEL",   codec := .scaled velocityFactor .signed32 },
    { num := 6,   name := "FIX_ACC",   codec := .scaled accelerationFactor .unsigned32 },
    { num := 7,   name := "FIX_TRQ",   codec := .scaled torqueFactor .signed32 },
    { num := 10,  name := "FIX_S32",   codec := .rawSigned },
    { num := 35,  name := "FIX_FLAGS", codec := .bitfield },
    { num := 149, name := "FIX_149" },
    { num := 155, name := "FIX_155" },
    { num := 198, name := "U_BUS",     codec := .scaled busVoltageFactor .unsigned32 },
    { num := 231, name := "FIX_231" } ]

/-- The configuration at `State.reset`: the fixture table, and for every open parameter the default the spec names (D5,
D6, D16, D22; D14 "Safe default: every register"). DESIGN CHOICE, log 2. -/
def fixtureConfig : Config :=
  { table     := tableFix
    numerics  := .exact
    roundTie  := .halfEven
    oddPair   := .refuse
    onError   := .abort
    volatiles := tableFix.map (·.num)
    wordCheck := .afterAddressCheck }

end Sys2Proof.Machine
end

