-- ==== Sys2Proof/Machine/State.lean ====
section
/-! DEFINITION. Outcomes of a transaction (R12, R210 to R214), the machine's state as plain data (R21, R30), and the state after reset (R35, R36). -/

namespace Sys2Proof.Machine

/-- The three ways to name a register (R88): by name, by word address, by number. -/
inductive RegKey where
  | name (s : String)
  | addr (a : Int)
  | num (n : Int)
deriving DecidableEq, Repr

/-- The two failure kinds, with the value each records (R210, R211, R213). -/
inductive Failure where
  /-- "name or address not in the table": records the name, address or number as given (R210). -/
  | unknownRegister (key : RegKey)
  /-- A `Mode` register's raw value outside {0, 1, 2, 11} at typed decode: records the raw value (R211). -/
  | invalidMode (raw : Raw)
deriving DecidableEq, Repr

/-- The reasons of `refused(reason)`, the closed list of R214. -/
inductive Reason where
  | explodeDomain
  | wordRange
  | bitsLength
  | valueTagMismatch
  | nonFinite
  | oddPairAddress
  | reservedOpcode
deriving DecidableEq, Repr

/-- "Every operation returns exactly one of" these (R12). -/
inductive Answer (α : Type) where
  | ok (v : α)
  | fail (f : Failure)
  | refused (r : Reason)
deriving DecidableEq, Repr

/-- What an operation returns under `ok` (the column "Result" of R90). -/
inductive Result where
  /-- a sequence of bits, position 0 first -/
  | bits (b : List Bool)
  /-- an integer -/
  | int (n : Int)
  /-- a word pair `(lo, hi)` -/
  | words (lo hi : Word)
  /-- a typed value -/
  | value (v : Value)
  /-- a Register -/
  | register (r : Register)
  /-- the two word addresses of a Register -/
  | addrs (lo hi : Int)
  /-- a write that took effect -/
  | done
deriving DecidableEq, Repr

/-- One thing that happens to the block (R20), in the total order of R62. -/
inductive Event where
  /-- A transaction of a caller. The label `caller` is the model's own; the block never reads it (R220), log 7. -/
  | call (caller : Nat) (t : Transaction)
  /-- The controller environment replaces the cell of register `n` by `v` (R34). -/
  | environment (n : Nat) (v : Raw)
deriving DecidableEq, Repr

/-- An outcome as the runner keeps it (R97: "keeping every outcome"). -/
structure LogEntry where
  caller  : Nat
  outcome : Answer Result
deriving DecidableEq, Repr

/-- The report of a script stopped under `abort`: "the outcome with the index of the transaction" (R97). -/
structure Report where
  caller  : Nat
  index   : Nat
  outcome : Answer Result
deriving DecidableEq, Repr

/-- The host-level fault. -/
inductive Fault where
  /-- Raised by a pair transfer to a Register of the table whose cell the storage lacks. R30 gives every Register of
  `TABLE` a cell, so no state with `Memory.wf` raises it and no run from reset meets it (log 9). Safe. -/
  | missingCell (num : Nat)
deriving DecidableEq, Repr

/-- The host-level refusal. The spec's own `refused(reason)` is an outcome that the machine delivers (`Answer.refused`, log
5), not this. -/
inductive Refusal where
  /-- Raised only by an arm of `exec` that has no meaning yet; no arm has. Safe. -/
  | notModelled (mnemonic : String)
deriving DecidableEq, Repr

/-- The machine. `cells` is the storage map `R` (R30), "exactly" the state of the block (R21); `cfg` is its configuration;
the other fields are the model's own view of the callers and the script runner (R97). -/
structure State where
  /-- Configuration: parameters of the step relation, never changed by a step (R21, R35). -/
  cfg     : Config
  /-- The storage map `R`: (register number, 32-bit cell), in the order of `TABLE` (R30). -/
  cells   : List (Nat × Raw)
  /-- The outcome of the latest transaction, delivered to its caller (R12, R217). -/
  result  : Option (Answer Result)
  /-- Transactions and environment steps still to happen, first one first (R20, R62). -/
  pending : List Event
  /-- Every outcome delivered so far, oldest first (R97). -/
  log     : List LogEntry
  /-- Scripts stopped under `abort`, oldest first (R97). -/
  reports : List Report
deriving DecidableEq, Repr

/-- Canonical form of the storage (R30): the table's numbers rise strictly and names differ (R24), and the cells are those
of the table's numbers, in that order, and no others. -/
def Memory.wf (table : List Register) (cells : List (Nat × Raw)) : Bool :=
  tableWf table && (cells.map Prod.fst == table.map Register.num)

/-- The state after reset for a given configuration and `RESET` (R35, R36, R240, R241): the table complete, every cell
`RESET(n)`, nothing pending, nothing delivered. -/
def State.resetWith (cfg : Config) (reset : Nat → Raw) : State :=
  { cfg     := cfg
    cells   := cfg.table.map fun r => (r.num, reset r.num)
    result  := none
    pending := []
    log     := []
    reports := [] }

/-- The machine right after reset: the fixture configuration (log 2) and the free `RESET` (log 3). -/
def State.reset : State := State.resetWith fixtureConfig Config.resetValue

end Sys2Proof.Machine
end

