-- ==== Sys2Proof/Machine/Ops.lean ====
section
/-! DEFINITION. The shared operations: sequencing of outcomes (R98), bit and word operations (R110 to R127), the typed codecs and their dispatch (R135 to R161), lookups (R170 to R174), the storage and the bus port (R52, R185, R186), delivering an outcome and a failure (R217). -/

namespace Sys2Proof.Machine

/-- A sequence of steps "stops at the first step that does not return `ok` and returns that step's outcome" (R98, R216). -/
def Answer.andThen {α β : Type} (x : Answer α) (f : α → Answer β) : Answer β :=
  match x with
  | .ok v      => f v
  | .fail e    => .fail e
  | .refused r => .refused r

/-- A step that yields a value under `ok` (R12). -/
def Answer.map {α β : Type} (f : α → β) (x : Answer α) : Answer β := x.andThen fun v => .ok (f v)

/-- An operation on storage: an outcome of R12, or the fault of a storage that lacks a cell (log 9). -/
abbrev Access (α : Type) := Except Fault (Answer α)

/-- R98's sequence where the next step touches storage. -/
def Answer.thenAccess {α β : Type} (x : Answer α) (f : α → Access β) : Access β :=
  match x with
  | .ok v      => f v
  | .fail e    => .ok (.fail e)
  | .refused r => .ok (.refused r)

/-- R98's sequence after a step that touches storage. -/
def Access.andThen {α β : Type} (x : Access α) (f : α → Answer β) : Access β :=
  match x with
  | .error e => .error e
  | .ok ans  => .ok (ans.andThen f)

/-! ### Bits and words -/

/-- `EXPLODE` on its domain: position `i` is `(x >> i) & 1`, position 0 first (R110). -/
def explodeBits (x n : Nat) : List Bool := (List.range n).map fun i => x.testBit i

/-- The weighted sum of a sequence whose first position has weight `2^i`. -/
def weightedSumFrom : Nat → List Bool → Nat
  | _, []      => 0
  | i, b :: bs => (b.toNat <<< i) + weightedSumFrom (i + 1) bs

/-- `IMPLODE`: the weighted sum `sum(bit_i << i)` (R111, D28). -/
def implodeBits (bits : List Bool) : Nat := weightedSumFrom 0 bits

/-- Bits 15:0 of a value (R52, R53). -/
def lowWord (u : Raw) : Word := u.extractLsb' 0 16

/-- Bits 31:16 of a value (R52, R53). -/
def highWord (u : Raw) : Word := u.extractLsb' 16 16

/-- The word pair of a 32-bit value (R81). -/
def wordsOf (u : Raw) : WordPair := { lo := lowWord u, hi := highWord u }

/-- The 32-bit value of a word pair, `lo + 65536*hi` (R87). -/
def rawOf (w : WordPair) : Raw := w.hi ++ w.lo

/-- `split32(v)` (R125): wrap modulo 2^32, then low and high word. -/
def split32 (v : Int) : WordPair := wordsOf (wrap32 v)

/-! ### Typed codecs -/

/-- The integer of a mode (R27, R84). -/
def modeNumber : Mode → Int
  | .passive  => 0
  | .velocity => 1
  | .position => 2
  | .stop     => 11

/-- `DEC.RAWU` (R136). -/
def decodeRawU (w : WordPair) : Answer Value := .ok (.uint (rawOf w).toNat)

/-- `ENC.RAWU` (R137). -/
def encodeRawU (n : Int) : Answer WordPair := .ok (split32 n)

/-- `DEC.RAWS` (R138). -/
def decodeRawS (w : WordPair) : Answer Value := .ok (.sint (toSigned32 (rawOf w)))

/-- `ENC.RAWS` (R139). -/
def encodeRawS (n : Int) : Answer WordPair := .ok (split32 n)

/-- A physical value that a binary64 division gives is refused where it is no number (R149, log 11). -/
def requireFinite : Phys → Answer Value
  | .finite q => .ok (.phys (.finite q))
  | .posInf   => .refused .nonFinite
  | .negInf   => .refused .nonFinite
  | .nan      => .refused .nonFinite

/-- `DEC.SCALED`: `raw / k` in the configured numerics (R140, R149); for `k ≤ 0` a free value (log 10). -/
def decodeScaled (numerics : Numerics) (k : Rat) (kind : Kind) (w : WordPair) : Answer Value :=
  let raw := readRaw kind (rawOf w)
  if 0 < k then
    match numerics with
    | .exact    => .ok (.phys (.finite (raw / k)))
    | .binary64 => requireFinite (divDouble raw (toDouble k))
  else .ok (.phys (.finite (Config.physOfNonPositiveFactor k raw)))

/-- `round` of a binary64 product, a free count where the product is no finite number (log 12). -/
def roundProduct (tie : RoundTie) (k q : Rat) : Phys → Int
  | .finite y => roundTie tie y
  | .posInf   => Config.countOfNonFiniteProduct k q
  | .negInf   => Config.countOfNonFiniteProduct k q
  | .nan      => Config.countOfNonFiniteProduct k q

/-- The count `round(q * k)` in exact numerics (R141). -/
def exactCount (tie : RoundTie) (k q : Rat) : Int :=
  if 0 < k then roundTie tie (q * k) else Config.countOfNonPositiveFactor k q

/-- The count `round(q * k)` in binary64 numerics, for `q` already the double `x` (R149). -/
def doubleCount (tie : RoundTie) (k x : Rat) : Int :=
  if 0 < k then roundProduct tie k x (mulDouble x (toDouble k)) else Config.countOfNonPositiveFactor k x

/-- `ENC.SCALED`: `split32(round(q * k))` in the configured numerics (R141, R149). A value that is no number is refused;
under exact numerics no such value exists (D29, log 13). `kind` "does not change the words produced" (R141). -/
def encodeScaled (numerics : Numerics) (tie : RoundTie) (k : Rat) (_kind : Kind) (p : Phys) : Answer WordPair :=
  match p with
  | .finite q =>
    match numerics with
    | .exact    => .ok (split32 (exactCount tie k q))
    | .binary64 =>
      match toDouble q with
      | .finite x => .ok (split32 (doubleCount tie k x))
      | .posInf   => .refused .nonFinite
      | .negInf   => .refused .nonFinite
      | .nan      => .refused .nonFinite
  | .posInf => .refused .nonFinite
  | .negInf => .refused .nonFinite
  | .nan    => .refused .nonFinite

/-- `DEC.MODE`: all 32 bits count; outside {0, 1, 2, 11} the failure `InvalidMode` (R145, R94). -/
def decodeMode (w : WordPair) : Answer Value :=
  let raw := rawOf w
  if raw.toNat = 0 then .ok (.mode .passive)
  else if raw.toNat = 1 then .ok (.mode .velocity)
  else if raw.toNat = 2 then .ok (.mode .position)
  else if raw.toNat = 11 then .ok (.mode .stop)
  else .fail (.invalidMode raw)

/-- `ENC.MODE` (R146). -/
def encodeMode (m : Mode) : Answer WordPair := .ok (split32 (modeNumber m))

/-- `DEC.BITS`: `EXPLODE(FROMWORDS.U(lo, hi), 32)` (R147). -/
def decodeBits (w : WordPair) : Answer Value := .ok (.bits (explodeBits (rawOf w).toNat 32))

/-- `ENC.BITS`: `split32(IMPLODE(s))`, a length other than 32 refused (R148). -/
def encodeBits (b : List Bool) : Answer WordPair :=
  if b.length = 32 then .ok (split32 (implodeBits b)) else .refused .bitsLength

/-- `DECODE`: the one dispatch on the codec tag (R160). -/
def decodeBy (cfg : Config) (c : Codec) (w : WordPair) : Answer Value :=
  match c with
  | .rawUnsigned   => decodeRawU w
  | .rawSigned     => decodeRawS w
  | .scaled k kind => decodeScaled cfg.numerics k kind w
  | .mode          => decodeMode w
  | .bitfield      => decodeBits w

/-- `ENCODE`: the dispatch on the codec tag and the value's tag; a value that does not fit is refused (R161). -/
def encodeBy (cfg : Config) (c : Codec) (v : Value) : Answer WordPair :=
  match c, v with
  | .rawUnsigned,   .uint n => encodeRawU n
  | .rawSigned,     .sint n => encodeRawS n
  | .scaled k kind, .phys p => encodeScaled cfg.numerics cfg.roundTie k kind p
  | .mode,          .mode m => encodeMode m
  | .bitfield,      .bits b => encodeBits b
  | _,              _       => .refused .valueTagMismatch

/-! ### Registry -/

/-- The low word's address of a Register, `addr[0] = 2*num` (R23, R170). -/
abbrev lowAddr (r : Register) : Int := 2 * (r.num : Int)

/-- The word address `a` lies in the span `[2*num, 2*num+1]` (R172). -/
def inSpan (a : Int) (r : Register) : Bool := decide (lowAddr r ≤ a) && decide (a ≤ lowAddr r + 1)

/-- The Register whose span holds `a` (R172). -/
def registerAt (T : List Register) (a : Int) : Option Register := T.find? (inSpan a)

/-- The Register of exactly that name (R171, D19). -/
def registerNamed (T : List Register) (s : String) : Option Register := T.find? fun r => r.name == s

/-- A lookup by each of R88's three forms; by number it is the lookup at the address `2*n` (R173). The failure records the
operand as given (R210). -/
def resolve (T : List Register) (key : RegKey) : Answer Register :=
  let found :=
    match key with
    | .name s => registerNamed T s
    | .addr a => registerAt T a
    | .num n  => registerAt T (2 * n)
  match found with
  | some r => .ok r
  | none   => .fail (.unknownRegister key)

/-- The loop of R174's reference search: the first index whose span upper bound is at least `a`. `fuel` bounds the number
of halvings. -/
def searchIndex (T : List Register) (a : Int) : Nat → Nat → Nat → Nat
  | 0,        lo, _  => lo
  | fuel + 1, lo, hi =>
    if lo < hi then
      let mid := (lo + hi) / 2
      match T[mid]? with
      | some r => if lowAddr r + 1 < a then searchIndex T a fuel (mid + 1) hi else searchIndex T a fuel lo mid
      | none   => lo
    else lo

/-- R174's reference search; what R172 says stays normative (`registerAt`), log 22. -/
def searchRegister (T : List Register) (a : Int) : Option Register :=
  match T[searchIndex T a (T.length + 1) 0 T.length]? with
  | some r => if lowAddr r ≤ a then some r else none
  | none   => none

/-! ### Storage and the bus port -/

/-- `R[n]`, `none` where no cell exists (R11, R30). -/
def State.cell (s : State) (n : Nat) : Option Raw := s.cells.lookup n

/-- `R[n] <- v`: all 32 bits of one cell; no other cell (R11, R31). -/
def State.setCell (s : State) (n : Nat) (v : Raw) : State :=
  { s with cells := s.cells.map fun c => if c.1 = n then (c.1, v) else c }

/-- The word view `W(a)`: the low or the high word of the Register whose span holds `a`, undefined elsewhere (R52). -/
def State.word (s : State) (a : Int) : Option Word :=
  match registerAt s.cfg.table a with
  | some r =>
    match s.cell r.num with
    | some v => some (if a = lowAddr r then lowWord v else highWord v)
    | none   => none
  | none => none

/-- The port's address check: a high word's address is refused under `refuse` (R56, R185). -/
def checkPairAddress (cfg : Config) (r : Register) (a : Int) : Answer Unit :=
  if a = lowAddr r + 1 ∧ cfg.oddPair = .refuse then .refused .oddPairAddress else .ok ()

/-- `READWORDS`: lookup, address check, then both words at one instant (R185). -/
def readPort (s : State) (a : Int) : Access WordPair :=
  ((resolve s.cfg.table (.addr a)).andThen fun r => (checkPairAddress s.cfg r a).map fun _ => r).thenAccess fun r =>
    match s.cell r.num with
    | some v => .ok (.ok (wordsOf v))
    | none   => .error (.missingCell r.num)

/-- `WRITEWORDS`: lookup, address check, word check, then all 32 bits of the cell at one instant (R186). `words` is the
outcome of checking the word operands; which of the two checks comes first is a parameter (log 14). -/
def writePort (s : State) (a : Int) (words : Answer WordPair) : Access State :=
  ((resolve s.cfg.table (.addr a)).andThen fun r =>
    match s.cfg.wordCheck with
    | .beforeAddressCheck => words.andThen fun w => (checkPairAddress s.cfg r a).map fun _ => (r, w)
    | .afterAddressCheck  => (checkPairAddress s.cfg r a).andThen fun _ => words.map fun w => (r, w)).thenAccess fun p =>
    match s.cell p.1.num with
    | some _ => .ok (.ok (s.setCell p.1.num (rawOf p.2)))
    | none   => .error (.missingCell p.1.num)

/-- `CSRREAD.*`: lookup, `READWORDS` at the low word's address, `DECODE` (R187, R193). -/
def csrRead (s : State) (key : RegKey) : Access Value :=
  (resolve s.cfg.table key).thenAccess fun r =>
    Access.andThen (readPort s (lowAddr r)) fun w => decodeBy s.cfg r.codec w

/-- `CSRWRITE.*`: lookup, `ENCODE`, `WRITEWORDS` at the low word's address (R188, R193). -/
def csrWrite (s : State) (key : RegKey) (v : Value) : Access State :=
  (resolve s.cfg.table key).thenAccess fun r =>
    (encodeBy s.cfg r.codec v).thenAccess fun w => writePort s (lowAddr r) (.ok w)

/-! ### Delivering an outcome -/

/-- The codes of the failure kinds, for tables only (R212). -/
def Failure.code : Failure → Nat
  | .unknownRegister _ => 1
  | .invalidMode _     => 2

/-- TAKING A FAILURE (R217): it is returned to the caller as the transaction's outcome; nothing is saved, no mode, mask or
stack changes, control goes nowhere. There is no handler, so no return and nothing to restore (R218): the next transaction
may follow at once. -/
def State.raise (s : State) (f : Failure) : State := { s with result := some (.fail f) }

/-- Delivering an outcome to the caller (R12, R217). A refusal, like a failure, changes no cell (R12). -/
def State.deliver (s : State) (ans : Answer Result) : State :=
  match ans with
  | .ok v      => { s with result := some (.ok v) }
  | .fail f    => s.raise f
  | .refused r => { s with result := some (.refused r) }

/-- The end of an operation that touches no storage: its outcome is delivered, nothing else changes (R58, R63). -/
def State.reply (s : State) (ans : Answer Result) : Host.Outcome State Fault Refusal := .next (s.deliver ans)

/-- The end of a read: its outcome is delivered, no cell changes (R185). -/
def State.replyRead (s : State) (x : Access Result) : Host.Outcome State Fault Refusal :=
  match x with
  | .ok ans  => .next (s.deliver ans)
  | .error e => .fault e

/-- The end of a write: `done` with the new storage, or the failure or refusal with the old one (R186, R217). -/
def State.replyWrite (s : State) (x : Access State) : Host.Outcome State Fault Refusal :=
  match x with
  | .ok (.ok s')     => .next (s'.deliver (.ok .done))
  | .ok (.fail f)    => .next (s.deliver (.fail f))
  | .ok (.refused r) => .next (s.deliver (.refused r))
  | .error e         => .fault e

end Sys2Proof.Machine
end

