-- ==== Sys2Proof/Machine/Operands.lean ====
section
/-! DEFINITION. Operand forms: word operands checked against U16 (R95), and how a result is handed back. The three forms that name a register (R88) are `RegKey` and `resolve`. The block has no flags (R42), so there is no flag computation. -/

namespace Sys2Proof.Machine

/-- A word operand as a word: only 0 to 65535 is one (R9). -/
def wordOperand (w : Int) : Option Word :=
  if 0 ≤ w ∧ w ≤ 65535 then some (BitVec.ofInt 16 w) else none

/-- The two word operands as a pair; one outside U16 is `refused(WordRange)` (R95, R214). -/
def pairOperand (lo hi : Int) : Answer WordPair :=
  match wordOperand lo, wordOperand hi with
  | some l, some h => .ok { lo := l, hi := h }
  | _,      _      => .refused .wordRange

/-- A word pair as an operation's result. -/
def pairResult (w : WordPair) : Result := .words w.lo w.hi

/-- The end of an operation that decodes a checked word pair to a typed value. -/
def replyDecoded (s : State) (lo hi : Int) (dec : WordPair → Answer Value) : Host.Outcome State Fault Refusal :=
  s.reply (((pairOperand lo hi).andThen dec).map .value)

/-- The end of an operation that encodes to a word pair. -/
def replyWords (s : State) (ans : Answer WordPair) : Host.Outcome State Fault Refusal :=
  s.reply (ans.map pairResult)

/-- The end of a typed read. -/
def replyCsrRead (s : State) (key : RegKey) : Host.Outcome State Fault Refusal :=
  s.replyRead (Access.andThen (csrRead s key) fun v => .ok (.value v))

/-- The end of a lookup. -/
def replyLookup (s : State) (key : RegKey) : Host.Outcome State Fault Refusal :=
  s.reply ((resolve s.cfg.table key).map .register)

end Sys2Proof.Machine
end

