-- ==== Sys2Proof/Machine/BitUtilities.lean ====
section
/-! DEFINITION. Family 0x0, the bit utilities (spec/40_bit_utilities.md). -/

namespace Sys2Proof.Machine

/-- `EXPLODE x, n` (R110); outside `0 ≤ x < 2^n`, or for `n < 0`, `refused(ExplodeDomain)` (R114, R214). -/
def execExplode (x n : Int) (s : State) : Host.Outcome State Fault Refusal :=
  if 0 ≤ n ∧ 0 ≤ x ∧ x < 2 ^ n.toNat then s.reply (.ok (.bits (explodeBits x.toNat n.toNat)))
  else s.reply (.refused .explodeDomain)

/-- `IMPLODE bits` (R111). -/
def execImplode (bits : List Bool) (s : State) : Host.Outcome State Fault Refusal :=
  s.reply (.ok (.int (implodeBits bits)))

end Sys2Proof.Machine
end

