-- ==== Sys2Proof/Machine/BusAccess.lean ====
section
/-! DEFINITION. Family 0x4, the bus port and typed register access (spec/44_bus_and_csr_access.md): the only operations that touch storage. -/

namespace Sys2Proof.Machine

/-- `READWORDS a` (R185). -/
def execReadWords (a : Int) (s : State) : Host.Outcome State Fault Refusal :=
  s.replyRead (Access.andThen (readPort s a) fun w => .ok (pairResult w))

/-- `WRITEWORDS a, lo, hi` (R186). -/
def execWriteWords (a lo hi : Int) (s : State) : Host.Outcome State Fault Refusal :=
  s.replyWrite (writePort s a (pairOperand lo hi))

/-- `CSRREAD.NAME name` (R187). -/
def execCsrReadName (name : String) (s : State) : Host.Outcome State Fault Refusal := replyCsrRead s (.name name)

/-- `CSRWRITE.NAME name, v` (R188). -/
def execCsrWriteName (name : String) (v : Value) (s : State) : Host.Outcome State Fault Refusal :=
  s.replyWrite (csrWrite s (.name name) v)

/-- `CSRREAD.ADDR a` (R189). -/
def execCsrReadAddr (a : Int) (s : State) : Host.Outcome State Fault Refusal := replyCsrRead s (.addr a)

/-- `CSRWRITE.ADDR a, v` (R190). -/
def execCsrWriteAddr (a : Int) (v : Value) (s : State) : Host.Outcome State Fault Refusal :=
  s.replyWrite (csrWrite s (.addr a) v)

/-- `CSRREAD.NUM n` (R191). -/
def execCsrReadNum (n : Int) (s : State) : Host.Outcome State Fault Refusal := replyCsrRead s (.num n)

/-- `CSRWRITE.NUM n, v` (R192). -/
def execCsrWriteNum (n : Int) (v : Value) (s : State) : Host.Outcome State Fault Refusal :=
  s.replyWrite (csrWrite s (.num n) v)

end Sys2Proof.Machine
end

