-- ==== Sys2Proof/Machine/Registry.lean ====
section
/-! DEFINITION. Family 0x3, the registry (spec/43_registry.md). -/

namespace Sys2Proof.Machine

/-- `ADDR r` (R170). -/
def execAddr (r : Register) (s : State) : Host.Outcome State Fault Refusal :=
  s.reply (.ok (.addrs (lowAddr r) (lowAddr r + 1)))

/-- `RESOLVE.NAME name` (R171). -/
def execResolveName (name : String) (s : State) : Host.Outcome State Fault Refusal := replyLookup s (.name name)

/-- `RESOLVE.ADDR a` (R172). -/
def execResolveAddr (a : Int) (s : State) : Host.Outcome State Fault Refusal := replyLookup s (.addr a)

/-- `RESOLVE.NUM n` (R173). -/
def execResolveNum (n : Int) (s : State) : Host.Outcome State Fault Refusal := replyLookup s (.num n)

end Sys2Proof.Machine
end

