-- ==== Sys2Proof/Machine/TypedCodec.lean ====
section
/-! DEFINITION. Family 0x2, the typed codecs and the codec dispatch (spec/42_typed_codecs.md). -/

namespace Sys2Proof.Machine

/-- `DEC.RAWU lo, hi` (R136). -/
def execDecRawU (lo hi : Int) (s : State) : Host.Outcome State Fault Refusal := replyDecoded s lo hi decodeRawU

/-- `ENC.RAWU UIntV(n)` (R137). -/
def execEncRawU (n : Int) (s : State) : Host.Outcome State Fault Refusal := replyWords s (encodeRawU n)

/-- `DEC.RAWS lo, hi` (R138). -/
def execDecRawS (lo hi : Int) (s : State) : Host.Outcome State Fault Refusal := replyDecoded s lo hi decodeRawS

/-- `ENC.RAWS SIntV(n)` (R139). -/
def execEncRawS (n : Int) (s : State) : Host.Outcome State Fault Refusal := replyWords s (encodeRawS n)

/-- `DEC.SCALED k, kind, lo, hi` (R140). -/
def execDecScaled (k : Rat) (kind : Kind) (lo hi : Int) (s : State) : Host.Outcome State Fault Refusal :=
  replyDecoded s lo hi (decodeScaled s.cfg.numerics k kind)

/-- `ENC.SCALED k, kind, PhysV(p)` (R141). -/
def execEncScaled (k : Rat) (kind : Kind) (p : Phys) (s : State) : Host.Outcome State Fault Refusal :=
  replyWords s (encodeScaled s.cfg.numerics s.cfg.roundTie k kind p)

/-- `DEC.MODE lo, hi` (R145). -/
def execDecMode (lo hi : Int) (s : State) : Host.Outcome State Fault Refusal := replyDecoded s lo hi decodeMode

/-- `ENC.MODE ModeV(m)` (R146). -/
def execEncMode (m : Mode) (s : State) : Host.Outcome State Fault Refusal := replyWords s (encodeMode m)

/-- `DEC.BITS lo, hi` (R147). -/
def execDecBits (lo hi : Int) (s : State) : Host.Outcome State Fault Refusal := replyDecoded s lo hi decodeBits

/-- `ENC.BITS BitsV(b)` (R148). -/
def execEncBits (b : List Bool) (s : State) : Host.Outcome State Fault Refusal := replyWords s (encodeBits b)

/-- `DECODE r, lo, hi` (R160): decodes the words it is given; the register's storage is not read. -/
def execDecode (r : Register) (lo hi : Int) (s : State) : Host.Outcome State Fault Refusal :=
  replyDecoded s lo hi (decodeBy s.cfg r.codec)

/-- `ENCODE r, v` (R161): the register's storage is not written. -/
def execEncode (r : Register) (v : Value) (s : State) : Host.Outcome State Fault Refusal :=
  replyWords s (encodeBy s.cfg r.codec v)

end Sys2Proof.Machine
end

