-- ==== Sys2Proof/Machine/WordCodec.lean ====
section
/-! DEFINITION. Family 0x1, the word codec (spec/41_word_codec.md). -/

namespace Sys2Proof.Machine

/-- `TOWORDS.U v` (R120). -/
def execToWordsU (v : Int) (s : State) : Host.Outcome State Fault Refusal := replyWords s (.ok (split32 v))

/-- `TOWORDS.S v` (R121). -/
def execToWordsS (v : Int) (s : State) : Host.Outcome State Fault Refusal := replyWords s (.ok (split32 v))

/-- `FROMWORDS.U lo, hi` (R122). -/
def execFromWordsU (lo hi : Int) (s : State) : Host.Outcome State Fault Refusal :=
  s.reply ((pairOperand lo hi).map fun w => .int (rawOf w).toNat)

/-- `FROMWORDS.S lo, hi` (R123). -/
def execFromWordsS (lo hi : Int) (s : State) : Host.Outcome State Fault Refusal :=
  s.reply ((pairOperand lo hi).map fun w => .int (toSigned32 (rawOf w)))

end Sys2Proof.Machine
end

