-- ==== Sys2Proof/Machine/Dispatch.lean ====
section
/-! DEFINITION. One arm per operation, each one direct call of its meaning. -/

namespace Sys2Proof.Machine

def exec (i : Instr) (s : State) : Host.Outcome State Fault Refusal :=
  match i with
  | .explode x n => Sys2Proof.Machine.execExplode x n s
  | .implode bits => Sys2Proof.Machine.execImplode bits s
  | .toWordsU v => Sys2Proof.Machine.execToWordsU v s
  | .toWordsS v => Sys2Proof.Machine.execToWordsS v s
  | .fromWordsU lo hi => Sys2Proof.Machine.execFromWordsU lo hi s
  | .fromWordsS lo hi => Sys2Proof.Machine.execFromWordsS lo hi s
  | .decRawU lo hi => Sys2Proof.Machine.execDecRawU lo hi s
  | .encRawU n => Sys2Proof.Machine.execEncRawU n s
  | .decRawS lo hi => Sys2Proof.Machine.execDecRawS lo hi s
  | .encRawS n => Sys2Proof.Machine.execEncRawS n s
  | .decScaled k kind lo hi => Sys2Proof.Machine.execDecScaled k kind lo hi s
  | .encScaled k kind p => Sys2Proof.Machine.execEncScaled k kind p s
  | .decMode lo hi => Sys2Proof.Machine.execDecMode lo hi s
  | .encMode m => Sys2Proof.Machine.execEncMode m s
  | .decBits lo hi => Sys2Proof.Machine.execDecBits lo hi s
  | .encBits b => Sys2Proof.Machine.execEncBits b s
  | .decode r lo hi => Sys2Proof.Machine.execDecode r lo hi s
  | .encode r v => Sys2Proof.Machine.execEncode r v s
  | .addr r => Sys2Proof.Machine.execAddr r s
  | .resolveName name => Sys2Proof.Machine.execResolveName name s
  | .resolveAddr a => Sys2Proof.Machine.execResolveAddr a s
  | .resolveNum n => Sys2Proof.Machine.execResolveNum n s
  | .readWords a => Sys2Proof.Machine.execReadWords a s
  | .writeWords a lo hi => Sys2Proof.Machine.execWriteWords a lo hi s
  | .csrReadName name => Sys2Proof.Machine.execCsrReadName name s
  | .csrWriteName name v => Sys2Proof.Machine.execCsrWriteName name v s
  | .csrReadAddr a => Sys2Proof.Machine.execCsrReadAddr a s
  | .csrWriteAddr a v => Sys2Proof.Machine.execCsrWriteAddr a v s
  | .csrReadNum n => Sys2Proof.Machine.execCsrReadNum n s
  | .csrWriteNum n v => Sys2Proof.Machine.execCsrWriteNum n v s

end Sys2Proof.Machine
end

