-- ==== Sys2Proof/Machine/Runner.lean ====
section
/-! DEFINITION. What happens around an operation: the next event (R62), the environment step (R34), the runner's record of an outcome and what `ON_ERROR` does after it (R97). -/

namespace Sys2Proof.Machine

/-- The environment step (R34): `R[n] <- v` for `n` in `VOLATILE`. For any other `n` there is no such transition and
nothing changes (log 8). -/
def State.environmentStep (s : State) (n : Nat) (v : Raw) : State :=
  if n ∈ s.cfg.volatiles then s.setCell n v else s

/-- The transaction's place in its caller's script: it advances by one after every transaction (R41, R97). -/
def State.position (s : State) (c : Nat) : Nat := (s.log.filter fun e => e.caller == c).length

/-- An event that caller `c`'s script still holds. -/
def Event.isCallOf (c : Nat) : Event → Bool
  | .call c' _       => c' == c
  | .environment _ _ => false

/-- The runner goes on after this outcome whatever `ON_ERROR` says (R97). -/
def Answer.isOk {α : Type} : Answer α → Bool
  | .ok _      => true
  | .fail _    => false
  | .refused _ => false

/-- Keeping an outcome (R97). -/
def State.keep (s : State) (c : Nat) (ans : Answer Result) : State :=
  { s with log := s.log ++ [{ caller := c, outcome := ans }] }

/-- Ending a script: the outcome is reported with the transaction's index and the caller's remaining transactions are not
applied (R97, R223). Other callers' transactions and the environment go on (log 7). -/
def State.stopScript (s : State) (c : Nat) (ans : Answer Result) : State :=
  { s with
    pending := s.pending.filter fun e => !(e.isCallOf c)
    reports := s.reports ++ [{ caller := c, index := s.position c, outcome := ans }] }

/-- The runner after caller `c`'s transaction gave `ans` (R97): it keeps the outcome, and after a `fail` or a `refused`
ends the script under `abort`. -/
def State.record (s : State) (c : Nat) (ans : Answer Result) : State :=
  if ans.isOk = true ∨ s.cfg.onError = .continue_ then s.keep c ans
  else (s.stopScript c ans).keep c ans

/-- The runner takes the outcome from the result port. -/
def State.recordResult (s : State) (c : Nat) : State :=
  match s.result with
  | some ans => s.record c ans
  | none     => s

/-- A transaction with a reserved opcode: `refused(ReservedOpcode)`, nothing else changes (R92). -/
def State.refuseReserved (s : State) : State := s.deliver (.refused .reservedOpcode)

end Sys2Proof.Machine
end

