-- ==== Sys2Proof/Machine/Step.lean ====
section
/-! DEFINITION. One step: the next event in the total order (R62), completed before the one after it (R63); and how a single transaction is placed where the next step takes it. -/

namespace Sys2Proof.Machine

/-- One step. With nothing pending the block waits (R241). An environment step changes storage silently (R34, R215). A
transaction is decoded, executed, and its outcome recorded for its caller (R97). -/
def step (s : State) : Host.Outcome State Fault Refusal :=
  match s.pending with
  | [] => .next s
  | .environment n v :: rest => .next (State.environmentStep { s with pending := rest } n v)
  | .call c t :: rest =>
    match decode t with
    | .error _ => .next ((State.refuseReserved { s with pending := rest }).recordResult c)
    | .ok i =>
      match exec i { s with pending := rest } with
      | .next s'   => .next (s'.recordResult c)
      | .fault e   => .fault e
      | .refused r => .refused r

/-- The transaction of an opcode byte with every port idle, placed as caller 0's at the head of what is pending. Nothing
else changes (log 4). -/
def State.withFetchWord (s : State) (_nbits w : Nat) : State :=
  { s with pending := .call 0 { op := BitVec.ofNat 8 w, ports := .idle } :: s.pending }

end Sys2Proof.Machine
end

