-- ==== Sys2Proof/Machine/Script.lean ====
section
/-! DEFINITION. Script syntax (R96): one transaction per line, read into an operation, and an expected outcome after `=>`; loading a script for a caller (R97). Names stand here in the spec's spelling. Where R96 is silent (blanks, an unknown Register in `reg(...)`), log 20. -/

namespace Sys2Proof.Machine

/-- A piece of a line: a run of letters, digits, `_` and `.`; a name in double quotes; a single sign. -/
inductive Token where
  | word (cs : List Char)
  | str (cs : List Char)
  | sym (c : Char)
deriving DecidableEq, Repr

/-- Inside a line: in plain text with the word read so far (last character first), or inside double quotes. -/
inductive LexMode where
  | text (acc : List Char)
  | quoted (acc : List Char)
deriving DecidableEq, Repr

/-- The signs of R96's syntax. -/
def isSign (c : Char) : Bool := "()[],-/=>".toList.contains c

def isWordChar (c : Char) : Bool := c.isAlphanum || c == '_' || c == '.'

/-- The word read so far put in front of the tokens after it. -/
def flushWord (acc : List Char) (ts : List Token) : List Token :=
  if acc.isEmpty then ts else .word acc.reverse :: ts

/-- The tokens of a line; a `#` outside quotes starts a comment (R96). -/
def lexLine : LexMode → List Char → Option (List Token)
  | .text acc,   []      => some (flushWord acc [])
  | .quoted _,   []      => none
  | .quoted acc, c :: cs =>
    if c = '"' then (lexLine (.text []) cs).map fun ts => .str acc.reverse :: ts else lexLine (.quoted (c :: acc)) cs
  | .text acc,   c :: cs =>
    if isWordChar c then lexLine (.text (c :: acc)) cs
    else if c = ' ' ∨ c = '\t' then (lexLine (.text []) cs).map (flushWord acc)
    else if c = '#' then some (flushWord acc [])
    else if c = '"' then (lexLine (.quoted []) cs).map (flushWord acc)
    else if isSign c then (lexLine (.text []) cs).map fun ts => flushWord acc (.sym c :: ts)
    else none

/-- A reader of the front of a token list. -/
abbrev Parser (α : Type) := List Token → Option (α × List Token)

def expectSign (c : Char) : List Token → Option (List Token)
  | .sym d :: ts => if d = c then some ts else none
  | _            => none

def expectWord (w : String) : List Token → Option (List Token)
  | .word v :: ts => if v = w.toList then some ts else none
  | _             => none

def mapParser {α β : Type} (f : α → β) (p : Parser α) : Parser β := fun ts => (p ts).map fun x => (f x.1, x.2)

/-- The first reader that succeeds. -/
def firstOf {α : Type} : List (Parser α) → Parser α
  | [],      _  => none
  | p :: ps, ts => (p ts).orElse fun _ => firstOf ps ts

/-- Two operands "separated by commas" (R96). -/
def commaPair {α β : Type} (p : Parser α) (q : Parser β) : Parser (α × β) := fun ts => do
  let (a, ts) ← p ts
  let ts ← expectSign ',' ts
  let (b, ts) ← q ts
  some ((a, b), ts)

/-- `tag(...)`. -/
def tagged {α : Type} (tag : String) (p : Parser α) : Parser α := fun ts => do
  let ts ← expectWord tag ts
  let ts ← expectSign '(' ts
  let (a, ts) ← p ts
  let ts ← expectSign ')' ts
  some (a, ts)

/-- The value of a digit below `base`. -/
def digitValue (base : Nat) (c : Char) : Option Nat :=
  let d :=
    if c.isDigit then c.toNat - '0'.toNat
    else if 'a' ≤ c ∧ c ≤ 'f' then c.toNat - 'a'.toNat + 10
    else if 'A' ≤ c ∧ c ≤ 'F' then c.toNat - 'A'.toNat + 10
    else base
  if d < base then some d else none

/-- Digits appended to a number read so far. -/
def digitsFrom (base : Nat) : Nat → List Char → Option Nat
  | n, []      => some n
  | n, c :: cs => (digitValue base c).bind fun d => digitsFrom base (n * base + d) cs

/-- A run of at least one decimal digit. -/
def digitsOf (w : List Char) : Option Nat := if w.isEmpty then none else digitsFrom 10 0 w

/-- A natural number, decimal or hexadecimal (R96). -/
def naturalOf : List Char → Option Nat
  | '0' :: 'x' :: w => if w.isEmpty then none else digitsFrom 16 0 w
  | w               => digitsOf w

/-- A decimal without an exponent, exactly the rational it spells (R9, R96). -/
def plainDecimalOf (w : List Char) : Option Rat :=
  match w.dropWhile (· ≠ '.') with
  | []        => (digitsOf w).map fun n => (n : Rat)
  | _ :: frac =>
    let whole := w.takeWhile (· ≠ '.')
    if whole.isEmpty ∨ frac.isEmpty then none
    else (digitsFrom 10 0 (whole ++ frac)).map fun n => mkRat n (10 ^ frac.length)

/-- The characters before the first `e`, and those after it if there is one. -/
def splitExponent : List Char → List Char × Option (List Char)
  | []      => ([], none)
  | c :: cs => if c = 'e' then ([], some cs) else (c :: (splitExponent cs).1, (splitExponent cs).2)

/-- A decimal, exactly the rational it spells (R9, R96), with an exponent that is not negative or with none. R96 shows
decimals without an exponent and R9 calls `3.598133e-3` one: that a script may write `e` and an exponent, and a rational as
a hexadecimal integer, is DESIGN CHOICE, log 20. -/
def decimalOf (w : List Char) : Option Rat :=
  match naturalOf w with
  | some n => some n
  | none   =>
    match splitExponent w with
    | (m, none)   => plainDecimalOf m
    | (m, some e) => (plainDecimalOf m).bind fun q => (digitsOf e).map fun n => q * 10 ^ n

/-- A decimal with a negative exponent: what stands before its minus sign, and the digits after it (log 20). -/
def negativeExponentOf (w e : List Char) : Option Rat :=
  match splitExponent w with
  | (m, some []) => (plainDecimalOf m).bind fun q => (digitsOf e).map fun n => q / 10 ^ n
  | _            => none

def integer : Parser Int
  | .sym '-' :: .word w :: ts => (naturalOf w).map fun n => (-(n : Int), ts)
  | .word w :: ts             => (naturalOf w).map fun n => ((n : Int), ts)
  | _                         => none

def positiveRational : Parser Rat
  | .word a :: .sym '/' :: .word b :: ts => do
    let n ← naturalOf a
    let d ← naturalOf b
    if d = 0 then none else some (mkRat n d, ts)
  | .word a :: .sym '-' :: .word b :: ts => (negativeExponentOf a b).map fun q => (q, ts)
  | .word a :: ts => (decimalOf a).map fun q => (q, ts)
  | _             => none

/-- "Rationals are a decimal or a fraction" (R96). -/
def rational : Parser Rat
  | .sym '-' :: ts => mapParser (fun q => -q) positiveRational ts
  | ts             => positiveRational ts

def quotedName : Parser String
  | .str cs :: ts => some (String.ofList cs, ts)
  | _             => none

/-- "A `Mode` is its bare name" (R96). -/
def modeName : Parser Mode := fun ts =>
  firstOf
    [ fun ts => (expectWord "PASSIVE" ts).map fun ts => (Mode.passive, ts),
      fun ts => (expectWord "VELOCITY" ts).map fun ts => (Mode.velocity, ts),
      fun ts => (expectWord "POSITION" ts).map fun ts => (Mode.position, ts),
      fun ts => (expectWord "STOP" ts).map fun ts => (Mode.stop, ts) ] ts

/-- "A `Kind` is `U` or `S`" (R96). -/
def kindName : Parser Kind := fun ts =>
  firstOf
    [ fun ts => (expectWord "U" ts).map fun ts => (Kind.unsigned32, ts),
      fun ts => (expectWord "S" ts).map fun ts => (Kind.signed32, ts) ] ts

def bitDigit (c : Char) : Option Bool :=
  if c = '0' then some false else if c = '1' then some true else none

/-- The rest of a bracketed list after one of its digits. -/
def bitListTail : Parser (List Bool)
  | .sym ']' :: ts              => some ([], ts)
  | .sym ',' :: .word [c] :: ts => do
    let b ← bitDigit c
    let (bs, ts) ← bitListTail ts
    some (b :: bs, ts)
  | _ => none

/-- A bracketed list of digits, position 0 first (R96). -/
def bitList : Parser (List Bool)
  | .sym '[' :: .sym ']' :: ts  => some ([], ts)
  | .sym '[' :: .word [c] :: ts => do
    let b ← bitDigit c
    let (bs, ts) ← bitListTail ts
    some (b :: bs, ts)
  | _ => none

/-- A bracketed list "of 32 digits" (R96). -/
def bitList32 : Parser (List Bool) := fun ts => do
  let (bs, ts) ← bitList ts
  if bs.length = 32 then some (bs, ts) else none

/-- The integer in `bits(...)`, which means `EXPLODE x, 32` (R96, R110). -/
def exploded32 : Parser (List Bool) := fun ts => do
  let (x, ts) ← integer ts
  if 0 ≤ x ∧ x < 2 ^ 32 then some (explodeBits x.toNat 32, ts) else none

/-- A `Bits32` (R96). -/
def bits32 : Parser (List Bool) := fun ts =>
  firstOf [tagged "bits" exploded32, tagged "bits" bitList32, bitList32] ts

/-- The operand of `IMPLODE`: a bracketed list of any length, or a `Bits32` as R96 writes it. R96 gives a written form for
32 positions only: the shorter and longer lists are DESIGN CHOICE, log 20. -/
def bitSequence : Parser (List Bool) := fun ts => firstOf [bitList, bits32] ts

/-- "A typed value is written with its tag" (R96). -/
def typedValue : Parser Value := fun ts =>
  firstOf
    [ mapParser .uint (tagged "u" integer),
      mapParser .sint (tagged "s" integer),
      mapParser (fun q => .phys (.finite q)) (tagged "phys" rational),
      mapParser .mode (tagged "mode" modeName),
      mapParser .bits bits32 ] ts

/-- `reg("U_BUS")` or `reg(198)`: a Register of the table (R96). -/
def registerOperand (T : List Register) : Parser Register := fun ts => do
  let (key, ts) ← tagged "reg" (fun ts => firstOf [mapParser RegKey.name quotedName, mapParser RegKey.num integer] ts) ts
  match resolve T key with
  | .ok r      => some (r, ts)
  | .fail _    => none
  | .refused _ => none

/-- The operands of the operation of that mnemonic, in R90's order. `IMPLODE` takes a sequence of any length (log 20). -/
def operandsOf (T : List Register) (mnemonic : String) : Parser Instr :=
  match mnemonic with
  | "EXPLODE"       => mapParser (fun p => .explode p.1 p.2) (commaPair integer integer)
  | "IMPLODE"       => mapParser .implode bitSequence
  | "TOWORDS.U"     => mapParser .toWordsU integer
  | "TOWORDS.S"     => mapParser .toWordsS integer
  | "FROMWORDS.U"   => mapParser (fun p => .fromWordsU p.1 p.2) (commaPair integer integer)
  | "FROMWORDS.S"   => mapParser (fun p => .fromWordsS p.1 p.2) (commaPair integer integer)
  | "DEC.RAWU"      => mapParser (fun p => .decRawU p.1 p.2) (commaPair integer integer)
  | "ENC.RAWU"      => mapParser .encRawU (tagged "u" integer)
  | "DEC.RAWS"      => mapParser (fun p => .decRawS p.1 p.2) (commaPair integer integer)
  | "ENC.RAWS"      => mapParser .encRawS (tagged "s" integer)
  | "DEC.SCALED"    =>
    mapParser (fun p => .decScaled p.1 p.2.1 p.2.2.1 p.2.2.2)
      (commaPair rational (commaPair kindName (commaPair integer integer)))
  | "ENC.SCALED"    =>
    mapParser (fun p => .encScaled p.1 p.2.1 (.finite p.2.2))
      (commaPair rational (commaPair kindName (tagged "phys" rational)))
  | "DEC.MODE"      => mapParser (fun p => .decMode p.1 p.2) (commaPair integer integer)
  | "ENC.MODE"      => mapParser .encMode (tagged "mode" modeName)
  | "DEC.BITS"      => mapParser (fun p => .decBits p.1 p.2) (commaPair integer integer)
  | "ENC.BITS"      => mapParser .encBits bits32
  | "DECODE"        =>
    mapParser (fun p => .decode p.1 p.2.1 p.2.2) (commaPair (registerOperand T) (commaPair integer integer))
  | "ENCODE"        => mapParser (fun p => .encode p.1 p.2) (commaPair (registerOperand T) typedValue)
  | "ADDR"          => mapParser .addr (registerOperand T)
  | "RESOLVE.NAME"  => mapParser .resolveName quotedName
  | "RESOLVE.ADDR"  => mapParser .resolveAddr integer
  | "RESOLVE.NUM"   => mapParser .resolveNum integer
  | "READWORDS"     => mapParser .readWords integer
  | "WRITEWORDS"    =>
    mapParser (fun p => .writeWords p.1 p.2.1 p.2.2) (commaPair integer (commaPair integer integer))
  | "CSRREAD.NAME"  => mapParser .csrReadName quotedName
  | "CSRWRITE.NAME" => mapParser (fun p => .csrWriteName p.1 p.2) (commaPair quotedName typedValue)
  | "CSRREAD.ADDR"  => mapParser .csrReadAddr integer
  | "CSRWRITE.ADDR" => mapParser (fun p => .csrWriteAddr p.1 p.2) (commaPair integer typedValue)
  | "CSRREAD.NUM"   => mapParser .csrReadNum integer
  | "CSRWRITE.NUM"  => mapParser (fun p => .csrWriteNum p.1 p.2) (commaPair integer typedValue)
  | _               => fun _ => none

/-- An expected outcome; a failure is expected by its kind alone (R96, R212). -/
inductive Expected where
  | ok (r : Result)
  | unknownRegister
  | invalidMode
  | refused (r : Reason)
deriving DecidableEq, Repr

/-- The result is the one written. A sequence of bits is written the same way whether an operation returns it bare
(`EXPLODE`) or as a flag set (`DEC.BITS`), and is met by either: DESIGN CHOICE, log 20. -/
def meetsWritten : Result → Result → Bool
  | .bits b,          .value (.bits b') => b == b'
  | .value (.bits b), .bits b'          => b == b'
  | r,                r'                => r == r'

/-- The outcome is the expected one. -/
def Expected.accepts (e : Expected) (ans : Answer Result) : Bool :=
  match e, ans with
  | .ok r,             .ok r'                      => meetsWritten r r'
  | .unknownRegister,  .fail (.unknownRegister _)  => true
  | .invalidMode,      .fail (.invalidMode _)      => true
  | .refused r,        .refused r'                 => r == r'
  | _,                 _                           => false

def reasonName : Parser Reason := fun ts =>
  firstOf
    [ fun ts => (expectWord "ExplodeDomain" ts).map fun ts => (Reason.explodeDomain, ts),
      fun ts => (expectWord "WordRange" ts).map fun ts => (Reason.wordRange, ts),
      fun ts => (expectWord "BitsLength" ts).map fun ts => (Reason.bitsLength, ts),
      fun ts => (expectWord "ValueTagMismatch" ts).map fun ts => (Reason.valueTagMismatch, ts),
      fun ts => (expectWord "NonFinite" ts).map fun ts => (Reason.nonFinite, ts),
      fun ts => (expectWord "OddPairAddress" ts).map fun ts => (Reason.oddPairAddress, ts),
      fun ts => (expectWord "ReservedOpcode" ts).map fun ts => (Reason.reservedOpcode, ts) ] ts

/-- A pair in parentheses: two word addresses after `ADDR`, otherwise a word pair. -/
def pairResultOf (isAddr : Bool) : Parser Result := fun ts => do
  let ts ← expectSign '(' ts
  let ((a, b), ts) ← commaPair integer integer ts
  let ts ← expectSign ')' ts
  if isAddr then some (.addrs a b, ts)
  else
    match pairOperand a b with
    | .ok w      => some (.words w.lo w.hi, ts)
    | .fail _    => none
    | .refused _ => none

/-- What follows `=>` (R96). -/
def expectedOutcome (T : List Register) (isAddr : Bool) : Parser Expected := fun ts =>
  firstOf
    [ fun ts => (expectWord "done" ts).map fun ts => (Expected.ok .done, ts),
      mapParser .ok (pairResultOf isAddr),
      mapParser (fun b => .ok (.bits b)) bitList,
      mapParser (fun v => .ok (.value v)) typedValue,
      mapParser (fun r => .ok (.register r)) (registerOperand T),
      mapParser (fun n => .ok (.int n)) integer,
      tagged "fail" fun ts => (expectWord "UnknownRegister" ts).map fun ts => (Expected.unknownRegister, ts),
      tagged "fail" fun ts => (expectWord "InvalidMode" ts).map fun ts => (Expected.invalidMode, ts),
      mapParser .refused (tagged "refused" reasonName) ] ts

/-- A line of a script: an operation and what its writer expects of it. -/
structure ScriptLine where
  op       : Instr
  expected : Option Expected
deriving DecidableEq, Repr

/-- The tokens of a line that holds a transaction. -/
def lineOf (T : List Register) : List Token → Option ScriptLine
  | .word m :: ts => do
    let (i, ts) ← operandsOf T (String.ofList m) ts
    match ts with
    | [] => some { op := i, expected := none }
    | .sym '=' :: .sym '>' :: ts => do
      let (e, ts) ← expectedOutcome T (m == "ADDR".toList) ts
      if ts.isEmpty then some { op := i, expected := some e } else none
    | _ => none
  | _ => none

/-- One line (R96): `some none` where it holds nothing but a comment, `none` where it is no line of the syntax. -/
def parseLine (T : List Register) (line : List Char) : Option (Option ScriptLine) :=
  match lexLine (.text []) line with
  | none           => none
  | some []        => some none
  | some (t :: ts) => (lineOf T (t :: ts)).map some

/-- The lines of a text. -/
def splitLines : List Char → List Char → List (List Char)
  | acc, []      => [acc.reverse]
  | acc, c :: cs => if c = '\n' then acc.reverse :: splitLines [] cs else splitLines (c :: acc) cs

/-- The transactions of the lines, in order. -/
def parseLines (T : List Register) : List (List Char) → Option (List ScriptLine)
  | []      => some []
  | l :: ls => do
    let here ← parseLine T l
    let rest ← parseLines T ls
    match here with
    | some x => some (x :: rest)
    | none   => some rest

/-- "A script is a finite list of transactions" (R97), one a line (R96). -/
def parseScript (T : List Register) (text : String) : Option (List ScriptLine) :=
  parseLines T (splitLines [] text.toList)

/-- A script placed for caller `c`, after what is already pending (R97). -/
def State.loadScript (s : State) (c : Nat) (script : List ScriptLine) : State :=
  { s with pending := s.pending ++ script.map fun l => .call c (encode l.op) }

end Sys2Proof.Machine
end

