-- ==== Sys2Proof/Safety.lean ====
section
/-! DEFINITION. The terms the statements use: good states, completed steps, conforming outcomes; integer readings of words written from R10 without bit vectors; which register an operation names. -/

namespace Sys2Proof.Machine

/-- The storage is in canonical form: a well-formed table and exactly one cell for each of its Registers (R24, R30). -/
abbrev State.Inv (s : State) : Prop := Memory.wf s.cfg.table s.cells = true

/-- The machine completes a step: no host-level fault and no host-level refusal (R213: "all functions are synchronous and
total"). -/
def Completes (s : State) : Prop := ∃ t, step s = .next t

/-- An outcome that a conforming caller can see: any but `refused(reason)` (R214). -/
def Answer.conforming {α : Type} : Answer α → Bool
  | .ok _      => true
  | .fail _    => true
  | .refused _ => false

/-- The operations of families 0x0 to 0x3, which touch no storage (R91, R220). -/
def touchesNoStorage (i : Instr) : Bool := decide (i.opcode.toNat < 0x40)

/-- A word operand in U16 (R9). -/
abbrev inU16 (w : Int) : Prop := 0 ≤ w ∧ w ≤ 65535

/-- The integer a pair of word operands spells (R87). -/
def pairValue (lo hi : Int) : Int := lo + 65536 * hi

/-- The pair carries `n` modulo 2^32, low word first (R81, R125). -/
def PairCarries (lo hi : Word) (n : Int) : Prop :=
  (lo.toNat : Int) = n % 4294967296 % 65536 ∧ (hi.toNat : Int) = n % 4294967296 / 65536

/-- `tosigned32` on integers (R10). -/
def signedReading (u : Int) : Int := if u < 2147483648 then u else u - 4294967296

/-- A U32 read by its kind (R87). -/
def readingOf (kind : Kind) (u : Int) : Int :=
  match kind with
  | .unsigned32 => u
  | .signed32   => signedReading u

/-- The range of a kind (R9). -/
def inKind (kind : Kind) (n : Int) : Prop :=
  match kind with
  | .unsigned32 => 0 ≤ n ∧ n ≤ 4294967295
  | .signed32   => -2147483648 ≤ n ∧ n ≤ 2147483647

/-- The values that a codec which does not scale represents exactly (R163). -/
def representable : Codec → Value → Prop
  | .rawUnsigned, .uint n => inKind .unsigned32 n
  | .rawSigned,   .sint n => inKind .signed32 n
  | .mode,        .mode _ => True
  | .bitfield,    .bits b => b.length = 32
  | _,            _       => False

/-- The operand by which an operation looks a Register up, if it does (R210). -/
def lookupKey : Instr → Option RegKey
  | .resolveName name    => some (.name name)
  | .resolveAddr a       => some (.addr a)
  | .resolveNum n        => some (.num n)
  | .readWords a         => some (.addr a)
  | .writeWords a _ _    => some (.addr a)
  | .csrReadName name    => some (.name name)
  | .csrWriteName name _ => some (.name name)
  | .csrReadAddr a       => some (.addr a)
  | .csrWriteAddr a _    => some (.addr a)
  | .csrReadNum n        => some (.num n)
  | .csrWriteNum n _     => some (.num n)
  | _                    => none

/-- The typed reads and the operand each names its Register by (R187, R189, R191). -/
def typedReadKey : Instr → Option RegKey
  | .csrReadName name => some (.name name)
  | .csrReadAddr a    => some (.addr a)
  | .csrReadNum n     => some (.num n)
  | _                 => none

/-- The typed writes, with the operand each names its Register by and the value (R188, R190, R192). -/
def typedWrite : Instr → Option (RegKey × Value)
  | .csrWriteName name v => some (.name name, v)
  | .csrWriteAddr a v    => some (.addr a, v)
  | .csrWriteNum n v     => some (.num n, v)
  | _                    => none

/-- An operation that writes storage (R40: `WRITEWORDS` and the `CSRWRITE` forms). -/
def isWrite : Instr → Bool
  | .writeWords _ _ _   => true
  | .csrWriteName _ _   => true
  | .csrWriteAddr _ _   => true
  | .csrWriteNum _ _    => true
  | _                   => false

/-- The operation writes, and the Register it names has number `n`. -/
def writesTo (T : List Register) (n : Nat) (i : Instr) : Prop :=
  isWrite i = true ∧ ∃ key r, lookupKey i = some key ∧ resolve T key = .ok r ∧ r.num = n

/-- An event that may change cell `n`: an environment step on it, or a write that names it (R31, R34). -/
def mayWrite (T : List Register) (n : Nat) : Event → Prop
  | .environment m _ => m = n
  | .call _ t        => ∃ i, decode t = .ok i ∧ writesTo T n i

end Sys2Proof.Machine
end

