-- ==== Sys2Proof/Certificates/Slice0/Obligations.lean ====
section
/-! DEFINITION. The statements for the provers, from the numbered rules of the spec. -/

open Sys2Proof Sys2Proof.Machine

/-! ### Bit utilities -/

/-- R110: `EXPLODE` on its domain and outside it. -/
def Obligations.ExplodeListsBitsLsbFirst : Prop :=
  ∀ (x n : Int) (s : State),
    (Instr.explode x n).opcode = 0x01 ∧
    (0 ≤ n → 0 ≤ x → x < 2 ^ n.toNat →
      ∃ bits : List Bool, exec (.explode x n) s = .next { s with result := some (.ok (.bits bits)) } ∧
        bits.length = n.toNat ∧ ∀ i : Nat, i < n.toNat → bits[i]? = some (decide (x / 2 ^ i % 2 = 1))) ∧
    (¬(0 ≤ n ∧ 0 ≤ x ∧ x < 2 ^ n.toNat) →
      exec (.explode x n) s = .next { s with result := some (.refused .explodeDomain) })

/-- R111: `IMPLODE` is the weighted sum, below `2^n`. -/
def Obligations.ImplodeIsTheWeightedSum : Prop :=
  ∀ (bits : List Bool) (s : State),
    (Instr.implode bits).opcode = 0x02 ∧
    ∃ N : Nat, exec (.implode bits) s = .next { s with result := some (.ok (.int N)) } ∧
      N = ∑ i ∈ Finset.range bits.length, (if bits[i]? = some true then 2 ^ i else 0) ∧ N < 2 ^ bits.length

/-- R112: both round trips of the bit utilities. -/
def Obligations.ImplodeAndExplodeAreInverse : Prop :=
  (∀ (x n : Int) (s : State), 0 ≤ n → 0 ≤ x → x < 2 ^ n.toNat →
    ∃ bits, exec (.explode x n) s = .next { s with result := some (.ok (.bits bits)) } ∧
      exec (.implode bits) s = .next { s with result := some (.ok (.int x)) }) ∧
  (∀ (bits : List Bool) (s : State),
    ∃ x : Int, exec (.implode bits) s = .next { s with result := some (.ok (.int x)) } ∧
      exec (.explode x bits.length) s = .next { s with result := some (.ok (.bits bits)) })

/-- From R115: position `i` of a flag set depends on bit `i` alone, in both directions. -/
def Obligations.FlagPositionsAreIndependent : Prop :=
  (∀ (lo hi lo' hi' : Word) (s : State) (i : Nat), i < 32 → (hi ++ lo).getLsbD i = (hi' ++ lo').getLsbD i →
    ∃ b b', exec (.decBits lo.toNat hi.toNat) s = .next { s with result := some (.ok (.value (.bits b))) } ∧
      exec (.decBits lo'.toNat hi'.toNat) s = .next { s with result := some (.ok (.value (.bits b'))) } ∧ b[i]? = b'[i]?) ∧
  (∀ (b b' : List Bool) (s : State) (i : Nat), b.length = 32 → b'.length = 32 → i < 32 → b[i]? = b'[i]? →
    ∃ lo hi lo' hi', exec (.encBits b) s = .next { s with result := some (.ok (.words lo hi)) } ∧
      exec (.encBits b') s = .next { s with result := some (.ok (.words lo' hi')) } ∧
      (hi ++ lo).getLsbD i = (hi' ++ lo').getLsbD i)

/-! ### Word codec -/

/-- R120, R121: both `TOWORDS` wrap modulo 2^32 and give low word, high word. -/
def Obligations.ToWordsWrapsAndSplits : Prop :=
  ∀ (v : Int) (s : State),
    (Instr.toWordsU v).opcode = 0x10 ∧ (Instr.toWordsS v).opcode = 0x11 ∧
    ∃ lo hi, PairCarries lo hi v ∧
      exec (.toWordsU v) s = .next { s with result := some (.ok (.words lo hi)) } ∧
      exec (.toWordsS v) s = .next { s with result := some (.ok (.words lo hi)) }

/-- R122, R123: both `FROMWORDS`, and their refusal of a word outside U16. -/
def Obligations.FromWordsJoinsLowWordFirst : Prop :=
  ∀ (lo hi : Int) (s : State),
    (Instr.fromWordsU lo hi).opcode = 0x12 ∧ (Instr.fromWordsS lo hi).opcode = 0x13 ∧
    (inU16 lo → inU16 hi →
      exec (.fromWordsU lo hi) s = .next { s with result := some (.ok (.int (pairValue lo hi))) } ∧
      exec (.fromWordsS lo hi) s = .next { s with result := some (.ok (.int (signedReading (pairValue lo hi)))) } ∧
      (signedReading (pairValue lo hi) < 0 ↔ 32768 ≤ hi)) ∧
    (¬(inU16 lo ∧ inU16 hi) →
      exec (.fromWordsU lo hi) s = .next { s with result := some (.refused .wordRange) } ∧
      exec (.fromWordsS lo hi) s = .next { s with result := some (.refused .wordRange) })

/-- R124: the four equations of the two-sided inverse. -/
def Obligations.WordCodecIsATwoSidedInverse : Prop :=
  ∀ s : State,
    (∀ v : Int, inKind .unsigned32 v →
      ∃ lo hi : Word, exec (.toWordsU v) s = .next { s with result := some (.ok (.words lo hi)) } ∧
        exec (.fromWordsU lo.toNat hi.toNat) s = .next { s with result := some (.ok (.int v)) }) ∧
    (∀ v : Int, inKind .signed32 v →
      ∃ lo hi : Word, exec (.toWordsS v) s = .next { s with result := some (.ok (.words lo hi)) } ∧
        exec (.fromWordsS lo.toNat hi.toNat) s = .next { s with result := some (.ok (.int v)) }) ∧
    (∀ lo hi : Word,
      ∃ v : Int, exec (.fromWordsU lo.toNat hi.toNat) s = .next { s with result := some (.ok (.int v)) } ∧
        exec (.toWordsU v) s = .next { s with result := some (.ok (.words lo hi)) }) ∧
    (∀ lo hi : Word,
      ∃ v : Int, exec (.fromWordsS lo.toNat hi.toNat) s = .next { s with result := some (.ok (.int v)) } ∧
        exec (.toWordsS v) s = .next { s with result := some (.ok (.words lo hi)) })

/-- From R127: what an integer of any size comes back as after both directions. -/
def Obligations.OutOfRangeIntegersComeBackWrapped : Prop :=
  ∀ (v : Int) (s : State), ∃ lo hi : Word,
    exec (.toWordsU v) s = .next { s with result := some (.ok (.words lo hi)) } ∧
    exec (.toWordsS v) s = .next { s with result := some (.ok (.words lo hi)) } ∧
    exec (.fromWordsU lo.toNat hi.toNat) s = .next { s with result := some (.ok (.int (v % 4294967296))) } ∧
    exec (.fromWordsS lo.toNat hi.toNat) s =
      .next { s with result := some (.ok (.int (signedReading (v % 4294967296)))) }

/-! ### Typed codecs -/

/-- R136, R137: the raw unsigned codec. -/
def Obligations.RawUnsignedCodecPassesTheInteger : Prop :=
  ∀ s : State,
    (∀ lo hi : Int, (Instr.decRawU lo hi).opcode = 0x20 ∧
      (inU16 lo → inU16 hi →
        exec (.decRawU lo hi) s = .next { s with result := some (.ok (.value (.uint (pairValue lo hi)))) }) ∧
      (¬(inU16 lo ∧ inU16 hi) → exec (.decRawU lo hi) s = .next { s with result := some (.refused .wordRange) })) ∧
    (∀ n : Int, (Instr.encRawU n).opcode = 0x21 ∧
      ∃ lo hi, PairCarries lo hi n ∧ exec (.encRawU n) s = .next { s with result := some (.ok (.words lo hi)) })

/-- R138, R139: the raw signed codec. -/
def Obligations.RawSignedCodecReadsTwosComplement : Prop :=
  ∀ s : State,
    (∀ lo hi : Int, (Instr.decRawS lo hi).opcode = 0x22 ∧
      (inU16 lo → inU16 hi →
        exec (.decRawS lo hi) s =
          .next { s with result := some (.ok (.value (.sint (signedReading (pairValue lo hi))))) }) ∧
      (¬(inU16 lo ∧ inU16 hi) → exec (.decRawS lo hi) s = .next { s with result := some (.refused .wordRange) })) ∧
    (∀ n : Int, (Instr.encRawS n).opcode = 0x23 ∧
      ∃ lo hi, PairCarries lo hi n ∧ exec (.encRawS n) s = .next { s with result := some (.ok (.words lo hi)) })

/-- R140 under the reference numerics: the raw integer, read by its kind, divided by the factor. -/
def Obligations.ScaledDecodeDividesByTheFactor : Prop :=
  ∀ (k : Rat) (kind : Kind) (lo hi : Int) (s : State), 0 < k → s.cfg.numerics = .exact →
    (Instr.decScaled k kind lo hi).opcode = 0x24 ∧
    (inU16 lo → inU16 hi →
      exec (.decScaled k kind lo hi) s =
        .next { s with result := some (.ok (.value (.phys (.finite ((readingOf kind (pairValue lo hi) : Rat) / k))))) }) ∧
    (¬(inU16 lo ∧ inU16 hi) → exec (.decScaled k kind lo hi) s = .next { s with result := some (.refused .wordRange) })

/-- R141 under the reference numerics: the nearest integer to `q * k`, a tie by `ROUND_TIE`, carried modulo 2^32. -/
def Obligations.ScaledEncodeRoundsToNearest : Prop :=
  ∀ (k : Rat) (kind : Kind) (q : Rat) (s : State), 0 < k → s.cfg.numerics = .exact →
    (Instr.encScaled k kind (.finite q)).opcode = 0x25 ∧
    ∃ (n : Int) (lo hi : Word), PairCarries lo hi n ∧
      exec (.encScaled k kind (.finite q)) s = .next { s with result := some (.ok (.words lo hi)) } ∧
      |q * k - n| ≤ 1 / 2 ∧
      (|q * k - n| = 1 / 2 →
        match s.cfg.roundTie with
        | .halfEven => n % 2 = 0
        | .halfAway => |q * k| ≤ |(n : Rat)|
        | .halfUp   => q * k ≤ n)

/-- From R144 and R149: encode then decode stays within the rounding tolerance while the rounded count is in range: half a
count, `1/(2*k)`, under exact numerics; one count, `1/k`, under binary64, wherever the factor, the value, the product and
the quotient round to finite doubles (the format is PRESUMED, log 11). -/
def Obligations.ScaledRoundTripWithinTolerance : Prop :=
  ∀ (k : Rat) (kind : Kind) (q : Rat) (s : State), 0 < k →
    (s.cfg.numerics = .exact → inKind kind (roundTie s.cfg.roundTie (q * k)) →
      ∃ (lo hi : Word) (q' : Rat),
        exec (.encScaled k kind (.finite q)) s = .next { s with result := some (.ok (.words lo hi)) } ∧
        exec (.decScaled k kind lo.toNat hi.toNat) s =
          .next { s with result := some (.ok (.value (.phys (.finite q')))) } ∧
        |q' - q| ≤ 1 / (2 * k)) ∧
    (∀ (d x y q' : Rat), s.cfg.numerics = .binary64 → toDouble k = .finite d → d ≠ 0 → toDouble q = .finite x →
      toDouble (x * d) = .finite y → inKind kind (roundTie s.cfg.roundTie y) →
      toDouble ((roundTie s.cfg.roundTie y : Rat) / d) = .finite q' →
      ∃ lo hi : Word,
        exec (.encScaled k kind (.finite q)) s = .next { s with result := some (.ok (.words lo hi)) } ∧
        exec (.decScaled k kind lo.toNat hi.toNat) s =
          .next { s with result := some (.ok (.value (.phys (.finite q')))) } ∧
        |q' - q| ≤ 1 / k)

/-- R143, and from R149: what any table with R25's facts does with the bus voltage register. Under the reference numerics
the scenario is exact; under binary64 it holds to a relative 2^-52 on decode, and to the count on encode (the format is
PRESUMED, log 11). -/
def Obligations.BusVoltageScenarioHolds : Prop :=
  ∀ s : State, tableKnownRows s.cfg.table = true →
    ∃ r ∈ s.cfg.table, r.num = 198 ∧ r.name = "U_BUS" ∧ r.codec = .scaled (125 / 111) .unsigned32 ∧
      (∃ q : Rat, exec (.decode r 0x03E8 0) s = .next { s with result := some (.ok (.value (.phys (.finite q)))) } ∧
        |q - 888| ≤ 888 / 2 ^ 52 ∧ (s.cfg.numerics = .exact → q = 888)) ∧
      exec (.encode r (.phys (.finite 888))) s = .next { s with result := some (.ok (.words 0x03E8 0)) } ∧
      (s.cfg.numerics = .exact →
        (∀ lo hi : Int, inU16 lo → inU16 hi →
          exec (.decode r lo hi) s =
            .next { s with result := some (.ok (.value (.phys (.finite ((pairValue lo hi : Rat) * 111 / 125))))) }) ∧
        ∀ p : Rat, ∃ lo hi, PairCarries lo hi (roundTie s.cfg.roundTie (p * 125 / 111)) ∧
          exec (.encode r (.phys (.finite p))) s = .next { s with result := some (.ok (.words lo hi)) })

/-- The model's own choice for a factor outside the domain of R140 and R141 (log 10): both operations still complete, with
the refusals of any other factor. -/
def Obligations.NonPositiveFactorStillCompletes : Prop :=
  ∀ (k : Rat) (kind : Kind) (s : State), k ≤ 0 →
    (∀ lo hi : Int, inU16 lo → inU16 hi →
      ∃ q, exec (.decScaled k kind lo hi) s = .next { s with result := some (.ok (.value (.phys (.finite q)))) }) ∧
    (∀ lo hi : Int, ¬(inU16 lo ∧ inU16 hi) →
      exec (.decScaled k kind lo hi) s = .next { s with result := some (.refused .wordRange) }) ∧
    (∀ q : Rat, (s.cfg.numerics = .binary64 → ∃ x, toDouble q = .finite x) →
      ∃ lo hi, exec (.encScaled k kind (.finite q)) s = .next { s with result := some (.ok (.words lo hi)) })

/-- R145: the four modes and the failure for every other raw value. -/
def Obligations.ModeDecodeAcceptsFourValues : Prop :=
  ∀ (lo hi : Int) (s : State),
    (Instr.decMode lo hi).opcode = 0x26 ∧
    (inU16 lo → inU16 hi →
      (pairValue lo hi = 0 → exec (.decMode lo hi) s = .next { s with result := some (.ok (.value (.mode .passive))) }) ∧
      (pairValue lo hi = 1 → exec (.decMode lo hi) s = .next { s with result := some (.ok (.value (.mode .velocity))) }) ∧
      (pairValue lo hi = 2 → exec (.decMode lo hi) s = .next { s with result := some (.ok (.value (.mode .position))) }) ∧
      (pairValue lo hi = 11 → exec (.decMode lo hi) s = .next { s with result := some (.ok (.value (.mode .stop))) }) ∧
      (pairValue lo hi ≠ 0 → pairValue lo hi ≠ 1 → pairValue lo hi ≠ 2 → pairValue lo hi ≠ 11 →
        ∃ raw : Raw, (raw.toNat : Int) = pairValue lo hi ∧
          exec (.decMode lo hi) s = .next { s with result := some (.fail (.invalidMode raw)) })) ∧
    (¬(inU16 lo ∧ inU16 hi) → exec (.decMode lo hi) s = .next { s with result := some (.refused .wordRange) })

/-- R146: the four rows of R84. -/
def Obligations.ModeEncodeGivesItsNumber : Prop :=
  ∀ s : State, (∀ m, (Instr.encMode m).opcode = 0x27) ∧
    exec (.encMode .passive) s = .next { s with result := some (.ok (.words 0x0000 0x0000)) } ∧
    exec (.encMode .velocity) s = .next { s with result := some (.ok (.words 0x0001 0x0000)) } ∧
    exec (.encMode .position) s = .next { s with result := some (.ok (.words 0x0002 0x0000)) } ∧
    exec (.encMode .stop) s = .next { s with result := some (.ok (.words 0x000B 0x0000)) }

/-- R147, R148: the flag-set codec, position by position. -/
def Obligations.FlagSetCodecMapsPositionsToBits : Prop :=
  ∀ s : State,
    (∀ lo hi : Int, (Instr.decBits lo hi).opcode = 0x28 ∧
      (inU16 lo → inU16 hi →
        ∃ b : List Bool, exec (.decBits lo hi) s = .next { s with result := some (.ok (.value (.bits b))) } ∧
          b.length = 32 ∧ ∀ i : Nat, i < 32 → b[i]? = some (decide (pairValue lo hi / 2 ^ i % 2 = 1))) ∧
      (¬(inU16 lo ∧ inU16 hi) → exec (.decBits lo hi) s = .next { s with result := some (.refused .wordRange) })) ∧
    (∀ b : List Bool, (Instr.encBits b).opcode = 0x29 ∧
      (b.length = 32 →
        ∃ lo hi : Word, exec (.encBits b) s = .next { s with result := some (.ok (.words lo hi)) } ∧
          (∀ i : Nat, i < 16 → b[i]? = some (lo.getLsbD i)) ∧
          (∀ i : Nat, i < 16 → b[i + 16]? = some (hi.getLsbD i))) ∧
      (b.length ≠ 32 → exec (.encBits b) s = .next { s with result := some (.refused .bitsLength) }))

/-- R160: the decode dispatch; it always completes and reads no storage. -/
def Obligations.DecodeDispatchesOnTheTag : Prop :=
  ∀ (r : Register) (lo hi : Int) (s : State),
    (Instr.decode r lo hi).opcode = 0x2E ∧
    (∃ ans, exec (.decode r lo hi) s = .next { s with result := some ans }) ∧
    exec (.decode r lo hi) s =
      match r.codec with
      | .rawUnsigned   => exec (.decRawU lo hi) s
      | .rawSigned     => exec (.decRawS lo hi) s
      | .scaled k kind => exec (.decScaled k kind lo hi) s
      | .mode          => exec (.decMode lo hi) s
      | .bitfield      => exec (.decBits lo hi) s

/-- R161: the encode dispatch, the refusal of a value whose tag does not fit, and that it always completes. -/
def Obligations.EncodeDispatchesOnTheTag : Prop :=
  ∀ (r : Register) (v : Value) (s : State),
    (Instr.encode r v).opcode = 0x2F ∧
    (∃ ans, exec (.encode r v) s = .next { s with result := some ans }) ∧
    exec (.encode r v) s =
      match r.codec, v with
      | .rawUnsigned,   .uint n => exec (.encRawU n) s
      | .rawSigned,     .sint n => exec (.encRawS n) s
      | .scaled k kind, .phys p => exec (.encScaled k kind p) s
      | .mode,          .mode m => exec (.encMode m) s
      | .bitfield,      .bits b => exec (.encBits b) s
      | _,              _       => .next { s with result := some (.refused .valueTagMismatch) }

/-- From R163: decode after encode for the codecs that do not scale; encode after decode for every codec, under the reference
numerics where it scales. -/
def Obligations.CodecRoundTrips : Prop :=
  (∀ (r : Register) (v : Value) (s : State), representable r.codec v →
    ∃ lo hi : Word, exec (.encode r v) s = .next { s with result := some (.ok (.words lo hi)) } ∧
      exec (.decode r lo.toNat hi.toNat) s = .next { s with result := some (.ok (.value v)) }) ∧
  (∀ (r : Register) (lo hi : Word) (s : State), r.codec.wellFormed = true →
    (∀ k kind, r.codec = .scaled k kind → s.cfg.numerics = .exact) →
    (r.codec = .mode → hi = 0 ∧ (lo = 0 ∨ lo = 1 ∨ lo = 2 ∨ lo = 11)) →
    ∃ v, exec (.decode r lo.toNat hi.toNat) s = .next { s with result := some (.ok (.value v)) } ∧
      exec (.encode r v) s = .next { s with result := some (.ok (.words lo hi)) })

/-- From R149: under binary64 the double of a rational is the nearest one. With `2^e ≤ |q| < 2^(e+1)` it is an integer
multiple of the unit in the last place, `2^(max e (-1022) - 52)`, with at most 53 bits, at most half a unit away, an exact
tie going to the even multiple; from the midpoint above the largest double on it is an infinity. The format is PRESUMED
(log 11). -/
def Obligations.DoubleRoundingIsNearestTiesToEven : Prop :=
  ∀ q : Rat,
    toDouble q ≠ .nan ∧
    (toDouble q = .posInf ↔ pow2 1024 - pow2 970 ≤ q) ∧
    (toDouble q = .negInf ↔ q ≤ -(pow2 1024 - pow2 970)) ∧
    ∀ y : Rat, toDouble q = .finite y →
      |y| < pow2 1024 ∧ (q = 0 → y = 0) ∧
      (q ≠ 0 → ∃ e m : Int, pow2 e ≤ |q| ∧ |q| < pow2 (e + 1) ∧
        y = m * pow2 (max e (-1022) - 52) ∧ |m| ≤ 2 ^ 53 ∧
        |y - q| ≤ pow2 (max e (-1022) - 53) ∧
        (|y - q| = pow2 (max e (-1022) - 53) → m % 2 = 0))

/-- From R149: the scaled codec under binary64, one rounded operation after the operands are rounded, at every double the
factor, the value and the result can round to; a physical value that is no number is refused, under either numerics
(log 13). The format is PRESUMED (log 11); a factor that rounds to 0 or to an infinity and an infinite product have the
outcomes log 11 and log 12 give them. -/
def Obligations.ScaledCodecUnderBinary64 : Prop :=
  (∀ (k : Rat) (kind : Kind) (s : State) (p : Phys), p.isFinite = false →
    exec (.encScaled k kind p) s = .next { s with result := some (.refused .nonFinite) }) ∧
  ∀ (k : Rat) (kind : Kind) (s : State), 0 < k → s.cfg.numerics = .binary64 →
    (∀ lo hi : Int, ¬(inU16 lo ∧ inU16 hi) →
      exec (.decScaled k kind lo hi) s = .next { s with result := some (.refused .wordRange) }) ∧
    (∀ lo hi : Int, inU16 lo → inU16 hi →
      (∀ d : Rat, toDouble k = .finite d → d ≠ 0 →
        exec (.decScaled k kind lo hi) s = .next { s with result := some (
          match toDouble ((readingOf kind (pairValue lo hi) : Rat) / d) with
          | .finite y => .ok (.value (.phys (.finite y)))
          | _         => .refused .nonFinite) }) ∧
      (toDouble k = .finite 0 →
        exec (.decScaled k kind lo hi) s = .next { s with result := some (.refused .nonFinite) }) ∧
      (toDouble k = .posInf →
        exec (.decScaled k kind lo hi) s = .next { s with result := some (.ok (.value (.phys (.finite 0)))) })) ∧
    (∀ q : Rat, (∀ x, toDouble q ≠ .finite x) →
      exec (.encScaled k kind (.finite q)) s = .next { s with result := some (.refused .nonFinite) }) ∧
    (∀ q x : Rat, toDouble q = .finite x →
      ∃ lo hi, exec (.encScaled k kind (.finite q)) s = .next { s with result := some (.ok (.words lo hi)) } ∧
        ∀ d y : Rat, toDouble k = .finite d → toDouble (x * d) = .finite y →
          PairCarries lo hi (roundTie s.cfg.roundTie y))

/-! ### Registry -/

/-- R170: the two word addresses of a Register. -/
def Obligations.AddrIsTwiceTheNumber : Prop :=
  ∀ (r : Register) (s : State), (Instr.addr r).opcode = 0x30 ∧
    exec (.addr r) s = .next { s with result := some (.ok (.addrs (2 * r.num) (2 * r.num + 1))) }

/-- R171: lookup by the whole name. -/
def Obligations.ResolveByNameIsExactMatch : Prop :=
  ∀ (name : String) (s : State), tableWf s.cfg.table = true →
    (Instr.resolveName name).opcode = 0x31 ∧
    (∀ r ∈ s.cfg.table, r.name = name →
      exec (.resolveName name) s = .next { s with result := some (.ok (.register r)) }) ∧
    ((∀ r ∈ s.cfg.table, r.name ≠ name) →
      exec (.resolveName name) s = .next { s with result := some (.fail (.unknownRegister (.name name))) })

/-- R172: lookup by a word address of the span. -/
def Obligations.ResolveByAddressFindsTheSpan : Prop :=
  ∀ (a : Int) (s : State), tableWf s.cfg.table = true →
    (Instr.resolveAddr a).opcode = 0x32 ∧
    (∀ r ∈ s.cfg.table, 2 * (r.num : Int) ≤ a → a ≤ 2 * (r.num : Int) + 1 →
      exec (.resolveAddr a) s = .next { s with result := some (.ok (.register r)) }) ∧
    ((∀ r ∈ s.cfg.table, ¬(2 * (r.num : Int) ≤ a ∧ a ≤ 2 * (r.num : Int) + 1)) →
      exec (.resolveAddr a) s = .next { s with result := some (.fail (.unknownRegister (.addr a))) })

/-- From R173: lookup by number; it answers as the lookup at address `2*n` does where that succeeds. That its failure
records the number, not the address, is by R210 (log 15). -/
def Obligations.ResolveByNumberFindsTheNumber : Prop :=
  ∀ (n : Int) (s : State), tableWf s.cfg.table = true →
    (Instr.resolveNum n).opcode = 0x33 ∧
    (∀ r ∈ s.cfg.table, (r.num : Int) = n →
      exec (.resolveNum n) s = .next { s with result := some (.ok (.register r)) } ∧
      exec (.resolveNum n) s = exec (.resolveAddr (2 * n)) s) ∧
    ((∀ r ∈ s.cfg.table, (r.num : Int) ≠ n) →
      exec (.resolveNum n) s = .next { s with result := some (.fail (.unknownRegister (.num n))) })

/-- From R172 and R174: on a well-formed table the binary search finds what the lookup by address finds, at every address. -/
def Obligations.BinarySearchFindsTheSameRegister : Prop :=
  ∀ (T : List Register) (a : Int), tableWf T = true → searchRegister T a = registerAt T a

/-- From R60: a gap has no storage, and every access to it, by any operation that takes an address or a number, fails and
changes nothing else. The failure records the operand as given (R210; of a number, log 15). -/
def Obligations.EveryAccessToAGapFails : Prop :=
  ∀ (s : State) (n : Int), (∀ r ∈ s.cfg.table, (r.num : Int) ≠ n) →
    (∀ a : Int, (a = 2 * n ∨ a = 2 * n + 1) → ∀ i : Instr, lookupKey i = some (.addr a) →
      exec i s = .next { s with result := some (.fail (.unknownRegister (.addr a))) }) ∧
    (∀ i : Instr, lookupKey i = some (.num n) →
      exec i s = .next { s with result := some (.fail (.unknownRegister (.num n))) }) ∧
    s.word (2 * n) = none ∧ s.word (2 * n + 1) = none ∧
    (s.Inv → ∀ m : Nat, (m : Int) = n → s.cell m = none)

/-- From R25, R59 and R93: in every table with R25's facts, whatever its length, the reserved numbers and everything
outside 1 to 231 fail. The failure records the operand as given (R210; of a number, log 15). -/
def Obligations.ReservedNumbersFailInEveryKnownTable : Prop :=
  ∀ (s : State), tableKnownRows s.cfg.table = true →
    (∀ a : Int, (a < 2 ∨ (300 ≤ a ∧ a ≤ 309) ∨ 464 ≤ a) → ∀ i : Instr, lookupKey i = some (.addr a) →
      exec i s = .next { s with result := some (.fail (.unknownRegister (.addr a))) }) ∧
    (∀ n : Int, (n < 1 ∨ (150 ≤ n ∧ n ≤ 154) ∨ 232 ≤ n) → ∀ i : Instr, lookupKey i = some (.num n) →
      exec i s = .next { s with result := some (.fail (.unknownRegister (.num n))) })

/-- R210: `UnknownRegister` exactly where the operation's lookup finds nothing; it records the operand as given and changes
nothing else. -/
def Obligations.UnknownRegisterExactlyWhenTheLookupFails : Prop :=
  (∀ (i : Instr) (s : State) (key : RegKey), lookupKey i = some key → (∀ r, resolve s.cfg.table key ≠ .ok r) →
    exec i s = .next { s with result := some (.fail (.unknownRegister key)) }) ∧
  (∀ (i : Instr) (s t : State) (key : RegKey), exec i s = .next t →
    t.result = some (.fail (.unknownRegister key)) →
    lookupKey i = some key ∧ (∀ r, resolve s.cfg.table key ≠ .ok r) ∧ t = { s with result := t.result })

/-! ### Bus port and typed access -/

/-- R185: `READWORDS` at the two addresses of a Register, under both policies, and outside every span. -/
def Obligations.ReadWordsReturnsTheCellsPair : Prop :=
  ∀ s : State, s.Inv →
    (∀ a, (Instr.readWords a).opcode = 0x40) ∧
    (∀ r ∈ s.cfg.table, ∀ v : Raw, s.cell r.num = some v →
      ∃ lo hi : Word, lo.toNat = v.toNat % 65536 ∧ hi.toNat = v.toNat / 65536 ∧
        exec (.readWords (2 * r.num)) s = .next { s with result := some (.ok (.words lo hi)) } ∧
        (s.cfg.oddPair = .alias_ →
          exec (.readWords (2 * r.num + 1)) s = .next { s with result := some (.ok (.words lo hi)) }) ∧
        (s.cfg.oddPair = .refuse →
          exec (.readWords (2 * r.num + 1)) s = .next { s with result := some (.refused .oddPairAddress) })) ∧
    (∀ a : Int, (∀ r ∈ s.cfg.table, ¬(2 * (r.num : Int) ≤ a ∧ a ≤ 2 * (r.num : Int) + 1)) →
      exec (.readWords a) s = .next { s with result := some (.fail (.unknownRegister (.addr a))) })

/-- From R186: `WRITEWORDS` where it takes effect: one cell, both its words, and nothing else but the result port. -/
def Obligations.WriteWordsReplacesOneCell : Prop :=
  ∀ (s : State) (r : Register) (a lo hi : Int), s.Inv → r ∈ s.cfg.table → inU16 lo → inU16 hi →
    (a = 2 * r.num ∨ (a = 2 * r.num + 1 ∧ s.cfg.oddPair = .alias_)) →
    (Instr.writeWords a lo hi).opcode = 0x41 ∧
    ∃ t, exec (.writeWords a lo hi) s = .next t ∧
      (∃ u : Raw, t.cell r.num = some u ∧ (u.toNat : Int) = pairValue lo hi) ∧
      (∃ w : Word, t.word (2 * r.num) = some w ∧ (w.toNat : Int) = lo) ∧
      (∃ w : Word, t.word (2 * r.num + 1) = some w ∧ (w.toNat : Int) = hi) ∧
      (∀ m, m ≠ r.num → t.cell m = s.cell m) ∧
      (∀ b : Int, b ≠ 2 * r.num → b ≠ 2 * r.num + 1 → t.word b = s.word b) ∧
      t = { s with cells := t.cells, result := some (.ok .done) }

/-- From R186, R56, R95, R216: `WRITEWORDS` where it is turned away; nothing but the result port changes. Which refusal an
odd address with a bad word meets is a parameter of the model (log 14). -/
def Obligations.WriteWordsTurnedAwayWritesNothing : Prop :=
  ∀ (s : State) (a lo hi : Int), s.Inv →
    ((∀ r ∈ s.cfg.table, ¬(2 * (r.num : Int) ≤ a ∧ a ≤ 2 * (r.num : Int) + 1)) →
      exec (.writeWords a lo hi) s = .next { s with result := some (.fail (.unknownRegister (.addr a))) }) ∧
    (∀ r ∈ s.cfg.table, a = 2 * r.num + 1 → s.cfg.oddPair = .refuse → inU16 lo → inU16 hi →
      exec (.writeWords a lo hi) s = .next { s with result := some (.refused .oddPairAddress) }) ∧
    (∀ r ∈ s.cfg.table, (a = 2 * r.num ∨ (a = 2 * r.num + 1 ∧ s.cfg.oddPair = .alias_)) → ¬(inU16 lo ∧ inU16 hi) →
      exec (.writeWords a lo hi) s = .next { s with result := some (.refused .wordRange) }) ∧
    (∀ r ∈ s.cfg.table, a = 2 * r.num + 1 → s.cfg.oddPair = .refuse → ¬(inU16 lo ∧ inU16 hi) →
      ∃ q, (q = .oddPairAddress ∨ q = .wordRange) ∧
        exec (.writeWords a lo hi) s = .next { s with result := some (.refused q) })

/-- From R187, R189, R191: a typed read, by name, by either address or by number, gives what `DECODE` gives on the cell's
words, and fails where the lookup does, recording the operand as given (R210; of a number, log 15). -/
def Obligations.TypedReadDecodesTheCell : Prop :=
  ∀ s : State, s.Inv →
    (∀ name a n, (Instr.csrReadName name).opcode = 0x48 ∧ (Instr.csrReadAddr a).opcode = 0x4A ∧
      (Instr.csrReadNum n).opcode = 0x4C) ∧
    (∀ r ∈ s.cfg.table, ∀ (v : Raw) (lo hi : Word), s.cell r.num = some v → lo.toNat = v.toNat % 65536 →
      hi.toNat = v.toNat / 65536 →
      ∃ ans, exec (.decode r lo.toNat hi.toNat) s = .next { s with result := some ans } ∧
        exec (.csrReadName r.name) s = .next { s with result := some ans } ∧
        exec (.csrReadAddr (2 * r.num)) s = .next { s with result := some ans } ∧
        exec (.csrReadAddr (2 * r.num + 1)) s = .next { s with result := some ans } ∧
        exec (.csrReadNum r.num) s = .next { s with result := some ans }) ∧
    (∀ (i : Instr) (key : RegKey), typedReadKey i = some key → (∀ r, resolve s.cfg.table key ≠ .ok r) →
      exec i s = .next { s with result := some (.fail (.unknownRegister key)) })

/-- From R188, R190, R192: a typed write of a value that fits stores what `ENCODE` gives, in the one cell and nothing else;
under binary64 (R149) also, but for a physical value that rounds to no finite double. -/
def Obligations.TypedWriteStoresTheEncoding : Prop :=
  ∀ (s : State) (r : Register) (v : Value) (i : Instr), s.Inv → r ∈ s.cfg.table →
    v.fits r.codec = true → v.wellFormed = true →
    (s.cfg.numerics = .binary64 → ∀ q, v = .phys (.finite q) → ∃ x, toDouble q = .finite x) →
    (i = .csrWriteName r.name v ∨ i = .csrWriteAddr (2 * r.num) v ∨ i = .csrWriteAddr (2 * r.num + 1) v ∨
      i = .csrWriteNum r.num v) →
    (∀ name a n, (Instr.csrWriteName name v).opcode = 0x49 ∧ (Instr.csrWriteAddr a v).opcode = 0x4B ∧
      (Instr.csrWriteNum n v).opcode = 0x4D) ∧
    ∃ (lo hi : Word) (t : State),
      exec (.encode r v) s = .next { s with result := some (.ok (.words lo hi)) } ∧
      exec i s = .next t ∧
      t.cell r.num = some (hi ++ lo) ∧
      (∀ m, m ≠ r.num → t.cell m = s.cell m) ∧
      (∀ b : Int, b ≠ 2 * r.num → b ≠ 2 * r.num + 1 → t.word b = s.word b) ∧
      t = { s with cells := t.cells, result := some (.ok .done) }

/-- From R188, R214, R216: a typed write that its lookup or `ENCODE` turns away has that outcome and writes nothing; the
lookup decides first, and its failure records the operand as given (R210; of a number, log 15). -/
def Obligations.TypedWriteTurnedAwayWritesNothing : Prop :=
  ∀ (s : State) (i : Instr) (key : RegKey) (v : Value), typedWrite i = some (key, v) →
    ((∀ r, resolve s.cfg.table key ≠ .ok r) →
      exec i s = .next { s with result := some (.fail (.unknownRegister key)) }) ∧
    (∀ r, resolve s.cfg.table key = .ok r → v.fits r.codec = false →
      exec i s = .next { s with result := some (.refused .valueTagMismatch) }) ∧
    (∀ r q, resolve s.cfg.table key = .ok r →
      exec (.encode r v) s = .next { s with result := some (.refused q) } →
      exec i s = .next { s with result := some (.refused q) })

/-- From R193: a typed access never meets `ODD_PAIR_POLICY`. -/
def Obligations.TypedAccessNeverMeetsOddPairPolicy : Prop :=
  ∀ (s t : State) (i : Instr), s.Inv → (typedReadKey i ≠ none ∨ typedWrite i ≠ none) → exec i s = .next t →
    t.result ≠ some (.refused .oddPairAddress) ∧
    ∀ p : OddPairPolicy, exec i { s with cfg := { s.cfg with oddPair := p } } =
      .next { t with cfg := { t.cfg with oddPair := p } }

/-- From R194: write then read, by words and typed. -/
def Obligations.WriteThenReadReturnsWhatWasWritten : Prop :=
  ∀ (s : State) (r : Register), s.Inv → r ∈ s.cfg.table →
    (∀ lo hi : Word, ∃ t, exec (.writeWords (2 * r.num) lo.toNat hi.toNat) s = .next t ∧
      exec (.readWords (2 * r.num)) t = .next { t with result := some (.ok (.words lo hi)) }) ∧
    (∀ v, representable r.codec v → ∃ t, exec (.csrWriteName r.name v) s = .next t ∧
      exec (.csrReadName r.name) t = .next { t with result := some (.ok (.value v)) }) ∧
    (∀ k kind q, r.codec = .scaled k kind → 0 < k → s.cfg.numerics = .exact →
      inKind kind (roundTie s.cfg.roundTie (q * k)) →
      ∃ t q', exec (.csrWriteName r.name (.phys (.finite q))) s = .next t ∧
        exec (.csrReadName r.name) t = .next { t with result := some (.ok (.value (.phys (.finite q')))) } ∧
        |q' - q| ≤ 1 / (2 * k))

/-- R52: the word view spells the cell and is undefined outside the table. -/
def Obligations.WordViewSpellsTheCell : Prop :=
  ∀ s : State, s.Inv →
    (∀ r ∈ s.cfg.table, ∃ (v : Raw) (lo hi : Word), s.cell r.num = some v ∧
      s.word (2 * r.num) = some lo ∧ s.word (2 * r.num + 1) = some hi ∧
      lo.toNat = v.toNat % 65536 ∧ hi.toNat = v.toNat / 65536 ∧ v.toNat = lo.toNat + 65536 * hi.toNat) ∧
    (∀ a : Int, (∀ r ∈ s.cfg.table, a ≠ 2 * r.num ∧ a ≠ 2 * r.num + 1) → s.word a = none)

/-- From R58: reading twice answers the same and changes nothing more; writing the same pair twice leaves what once leaves. -/
def Obligations.ReadsAndWritesAreIdempotent : Prop :=
  (∀ (s t : State) (a : Int), exec (.readWords a) s = .next t → exec (.readWords a) t = .next t) ∧
  (∀ (s t : State) (a lo hi : Int), exec (.writeWords a lo hi) s = .next t → exec (.writeWords a lo hi) t = .next t)

/-! ### Failures -/

/-- R211: a typed decode of a Mode register fails with `InvalidMode` where the raw value is no mode, recording it; nothing
else raises that failure, and raising it changes nothing else. -/
def Obligations.InvalidModeExactlyFromModeDecodes : Prop :=
  (∀ (s : State) (raw : Raw), raw.toNat ≠ 0 → raw.toNat ≠ 1 → raw.toNat ≠ 2 → raw.toNat ≠ 11 →
    (∀ lo hi : Int, inU16 lo → inU16 hi → pairValue lo hi = raw.toNat →
      exec (.decMode lo hi) s = .next { s with result := some (.fail (.invalidMode raw)) } ∧
      ∀ r : Register, r.codec = .mode →
        exec (.decode r lo hi) s = .next { s with result := some (.fail (.invalidMode raw)) }) ∧
    (∀ (i : Instr) (key : RegKey) (r : Register), s.Inv → typedReadKey i = some key → resolve s.cfg.table key = .ok r →
      r.codec = .mode → s.cell r.num = some raw →
      exec i s = .next { s with result := some (.fail (.invalidMode raw)) })) ∧
  (∀ (i : Instr) (s t : State) (raw : Raw), exec i s = .next t → t.result = some (.fail (.invalidMode raw)) →
    (raw.toNat ≠ 0 ∧ raw.toNat ≠ 1 ∧ raw.toNat ≠ 2 ∧ raw.toNat ≠ 11) ∧ t = { s with result := t.result } ∧
    ((∃ lo hi : Int, i = .decMode lo hi ∧ (raw.toNat : Int) = pairValue lo hi) ∨
      (∃ (r : Register) (lo hi : Int), i = .decode r lo hi ∧ r.codec = .mode ∧ (raw.toNat : Int) = pairValue lo hi) ∨
      (∃ (key : RegKey) (r : Register), typedReadKey i = some key ∧ resolve s.cfg.table key = .ok r ∧ r.codec = .mode ∧
        s.cell r.num = some raw)))

/-- R217: a transaction that fails or is refused changes nothing but the outcome its caller sees. -/
def Obligations.FailedTransactionChangesNothingElse : Prop :=
  ∀ (i : Instr) (s t : State), exec i s = .next t → (∀ v, t.result ≠ some (.ok v)) → t = { s with result := t.result }

/-- From R95 and R214: a conforming caller's operation on pure data is never refused, under the reference numerics. -/
def Obligations.WellFormedPureOperationsAreNotRefused : Prop :=
  ∀ (i : Instr) (s : State), i.wellFormed = true → touchesNoStorage i = true → s.cfg.numerics = .exact →
    ∃ ans, exec i s = .next { s with result := some ans } ∧ ans.conforming = true

/-- From R162 and R220: the operations of families 0x0 to 0x3 complete, depend on no storage and change none; the same operands
and configuration give the same outcome in any state. -/
def Obligations.PureOperationsNeitherReadNorWriteStorage : Prop :=
  ∀ (i : Instr) (s s' : State), touchesNoStorage i = true → s.cfg = s'.cfg →
    ∃ ans, exec i s = .next { s with result := some ans } ∧ exec i s' = .next { s' with result := some ans }

/-! ### The machine -/

/-- The step runs the decoded transaction and records its outcome for the caller. -/
def Obligations.StepRunsTheDecodedTransaction : Prop :=
  ∀ (s : State) (c : Nat) (t : Transaction) (rest : List Event) (i : Instr),
    s.pending = .call c t :: rest → decode t = .ok i →
    step s =
      match exec i { s with pending := rest } with
      | .next s'   => .next (s'.recordResult c)
      | .fault e   => .fault e
      | .refused q => .refused q

/-- R92: a reserved opcode is refused and changes nothing of the block; 226 of the 256 are reserved. -/
def Obligations.ReservedOpcodesAreRefused : Prop :=
  (∀ (s : State) (c : Nat) (t : Transaction) (rest : List Event), s.pending = .call c t :: rest →
    (∀ i : Instr, i.opcode ≠ t.op) →
    ∃ s', step s = .next s' ∧ s'.result = some (.refused .reservedOpcode) ∧ s'.cells = s.cells ∧ s'.cfg = s.cfg ∧
      s'.log = s.log ++ [{ caller := c, outcome := .refused .reservedOpcode }]) ∧
  ((List.range 256).filter fun b => (decodeTableWord 8 b).isNone).length = 226

/-- From R91, as words: a few rows of the opcode map read by the decoder. -/
def Obligations.OpcodeMapRows : Prop :=
  ∀ p : OperandPorts,
    decode { op := 0b00000001, ports := p } = .ok (.explode p.x p.n) ∧
    decode { op := 0b00010011, ports := p } = .ok (.fromWordsS p.lo p.hi) ∧
    decode { op := 0b00100101, ports := p } = .ok (.encScaled p.k p.kind p.vPhys) ∧
    decode { op := 0b00110011, ports := p } = .ok (.resolveNum p.n) ∧
    decode { op := 0b01001101, ports := p } = .ok (.csrWriteNum p.n p.vValue)

/-- Decoding what the encoder writes gives the operation back, for every operation and every operand; and a transaction
decodes exactly when its opcode is that of an operation, to one with that opcode (R80, R91). -/
def Obligations.DecodeInvertsEncode : Prop :=
  (∀ i : Instr, decode (encode i) = .ok i) ∧
  (∀ (t : Transaction) (i : Instr), decode t = .ok i → i.opcode = t.op ∧ decode { t with ports := i.ports } = .ok i) ∧
  (∀ t : Transaction, (∃ i, decode t = .ok i) ↔ ∃ i : Instr, i.opcode = t.op)

/-- From R24 and R30: every step keeps the storage in canonical form. -/
def Obligations.StepKeepsStorageForm : Prop :=
  ∀ s t : State, s.Inv → step s = .next t → t.Inv

/-- The state after reset has it. -/
def Obligations.ResetHasStorageForm : Prop := State.reset.Inv

/-- From R213: from a state in canonical form every step completes. -/
def Obligations.EveryStepCompletes : Prop := ∀ s : State, s.Inv → Completes s

/-- R36: after reset every cell of the table holds `RESET(n)`, for every configuration and every `RESET`; no other cell
exists. -/
def Obligations.ResetLeavesEveryCellAtItsResetValue : Prop :=
  ∀ (cfg : Config) (f : Nat → Raw), tableWf cfg.table = true →
    (State.resetWith cfg f).Inv ∧
    (∀ r ∈ cfg.table, (State.resetWith cfg f).cell r.num = some (f r.num)) ∧
    (∀ n, (∀ r ∈ cfg.table, r.num ≠ n) → (State.resetWith cfg f).cell n = none)

/-- From R21, R35 and R65: no step changes the configuration. -/
def Obligations.NoStepChangesTheConfiguration : Prop :=
  ∀ s t : State, step s = .next t → t.cfg = s.cfg

/-- From R31, R34 and R62: over any number of steps a cell keeps its value unless an environment step on it or a write that
names it is among what was pending. -/
def Obligations.CellKeepsItsValueUntilWritten : Prop :=
  ∀ (k : Nat) (s t : State) (n : Nat), (∀ e ∈ s.pending, ¬ mayWrite s.cfg.table n e) →
    Host.Core.run Sys2Proof.core k s = .next t → t.cell n = s.cell n

/-- From R34: the environment step on a register of `VOLATILE` replaces its cell silently; on any other it changes nothing
(log 8). -/
def Obligations.EnvironmentStepTouchesOnlyVolatileCells : Prop :=
  ∀ (s : State) (n : Nat) (v : Raw) (rest : List Event), s.pending = .environment n v :: rest →
    ∃ t, step s = .next t ∧ t = { s with pending := rest, cells := t.cells } ∧
      (∀ m, m ≠ n → t.cell m = s.cell m) ∧
      (n ∈ s.cfg.volatiles → t.cell n = (s.cell n).map fun _ => v) ∧
      (n ∉ s.cfg.volatiles → t.cells = s.cells)

/-- From R97 and R92: after an outcome, that of a reserved opcode included, the script goes on, or stops under `abort` with
a report of the outcome and its index; every outcome is kept. Other callers go on (log 7). -/
def Obligations.RunnerStopsAScriptOnlyUnderAbort : Prop :=
  ∀ (s u : State) (c : Nat) (t : Transaction) (rest : List Event) (ans : Answer Result),
    s.pending = .call c t :: rest → u.result = some ans →
    ((∃ i, decode t = .ok i ∧ exec i { s with pending := rest } = .next u) ∨
      ((∀ i : Instr, i.opcode ≠ t.op) ∧ u = { s with pending := rest, result := some (.refused .reservedOpcode) })) →
    ∃ s', step s = .next s' ∧ s'.result = some ans ∧ s'.cells = u.cells ∧
      s'.log = s.log ++ [{ caller := c, outcome := ans }] ∧
      ((∃ v, ans = .ok v) ∨ s.cfg.onError = .continue_ → s'.pending = rest ∧ s'.reports = s.reports) ∧
      ((∀ v, ans ≠ .ok v) → s.cfg.onError = .abort →
        s'.pending = rest.filter (fun e => match e with | .call c' _ => c' != c | .environment _ _ => true) ∧
        s'.reports = s.reports ++
          [{ caller := c, index := (s.log.filter fun e => e.caller == c).length, outcome := ans }])

/-- From R241: with nothing pending the block waits. -/
def Obligations.BlockWaitsWithNothingPending : Prop := ∀ s : State, s.pending = [] → step s = .next s

/-- From R29: the fixture table is well formed and has every fact of R25 but the length, which it fails for any tolerance
below 169; the spec's own table of numbers. -/
def Obligations.FixtureTableIsKnownButForItsLength : Prop :=
  tableWf tableFix = true ∧ tableKnownRows tableFix = true ∧
  (∀ tolerance, tolerance < 169 → tableKnown tolerance tableFix = false) ∧
  tableFix.map Register.num = [1, 2, 5, 6, 7, 10, 35, 149, 155, 198, 231] ∧ modeRegNum tableFix = some 2

/-- From R96: the spec's example line reads, with any table, as the operation and the expected outcome it shows. -/
def Obligations.ScriptExampleLineReads : Prop :=
  ∀ T : List Register,
    parseLine T "CSRWRITE.NAME \"MODE_REG\", mode(VELOCITY)  => done".toList =
      some (some { op := .csrWriteName "MODE_REG" (.mode .velocity), expected := some (.ok .done) })
end

