-- ==== Sys2Proof/Laws/State.lean ====
section
/-! SUPPORT. One lemma per field per update of the state. -/

namespace Sys2Proof.Machine

/-! ### Delivering an outcome writes the result port and nothing else -/

theorem State.deliver_eq (s : State) (a : Answer Result) : s.deliver a = { s with result := some a } := by
  cases a <;> rfl

@[simp] theorem State.deliver_result (s : State) (a : Answer Result) : (s.deliver a).result = some a := by cases a <;> rfl
@[simp] theorem State.deliver_cfg (s : State) (a : Answer Result) : (s.deliver a).cfg = s.cfg := by cases a <;> rfl
@[simp] theorem State.deliver_cells (s : State) (a : Answer Result) : (s.deliver a).cells = s.cells := by cases a <;> rfl
@[simp] theorem State.deliver_pending (s : State) (a : Answer Result) : (s.deliver a).pending = s.pending := by
  cases a <;> rfl
@[simp] theorem State.deliver_log (s : State) (a : Answer Result) : (s.deliver a).log = s.log := by cases a <;> rfl
@[simp] theorem State.deliver_reports (s : State) (a : Answer Result) : (s.deliver a).reports = s.reports := by
  cases a <;> rfl

/-! ### A register write changes `cells` and nothing else -/

@[simp] theorem State.setCell_cfg (s : State) (n : Nat) (v : Raw) : (s.setCell n v).cfg = s.cfg := rfl
@[simp] theorem State.setCell_result (s : State) (n : Nat) (v : Raw) : (s.setCell n v).result = s.result := rfl
@[simp] theorem State.setCell_pending (s : State) (n : Nat) (v : Raw) : (s.setCell n v).pending = s.pending := rfl
@[simp] theorem State.setCell_log (s : State) (n : Nat) (v : Raw) : (s.setCell n v).log = s.log := rfl
@[simp] theorem State.setCell_reports (s : State) (n : Nat) (v : Raw) : (s.setCell n v).reports = s.reports := rfl

/-! ### The runner writes `log`, `reports` and `pending`, never the block -/

@[simp] theorem State.keep_cfg (s : State) (c : Nat) (a : Answer Result) : (s.keep c a).cfg = s.cfg := rfl
@[simp] theorem State.keep_cells (s : State) (c : Nat) (a : Answer Result) : (s.keep c a).cells = s.cells := rfl
@[simp] theorem State.keep_result (s : State) (c : Nat) (a : Answer Result) : (s.keep c a).result = s.result := rfl
@[simp] theorem State.keep_pending (s : State) (c : Nat) (a : Answer Result) : (s.keep c a).pending = s.pending := rfl
@[simp] theorem State.keep_log (s : State) (c : Nat) (a : Answer Result) :
    (s.keep c a).log = s.log ++ [{ caller := c, outcome := a }] := rfl
@[simp] theorem State.keep_reports (s : State) (c : Nat) (a : Answer Result) : (s.keep c a).reports = s.reports := rfl

@[simp] theorem State.stopScript_cfg (s : State) (c : Nat) (a : Answer Result) : (s.stopScript c a).cfg = s.cfg := rfl
@[simp] theorem State.stopScript_cells (s : State) (c : Nat) (a : Answer Result) : (s.stopScript c a).cells = s.cells := rfl
@[simp] theorem State.stopScript_result (s : State) (c : Nat) (a : Answer Result) :
    (s.stopScript c a).result = s.result := rfl
@[simp] theorem State.stopScript_pending (s : State) (c : Nat) (a : Answer Result) :
    (s.stopScript c a).pending = s.pending.filter fun e => !(e.isCallOf c) := rfl
@[simp] theorem State.stopScript_log (s : State) (c : Nat) (a : Answer Result) : (s.stopScript c a).log = s.log := rfl
@[simp] theorem State.stopScript_reports (s : State) (c : Nat) (a : Answer Result) :
    (s.stopScript c a).reports = s.reports ++ [{ caller := c, index := s.position c, outcome := a }] := rfl

@[simp] theorem State.record_cfg (s : State) (c : Nat) (a : Answer Result) : (s.record c a).cfg = s.cfg := by
  unfold State.record; split <;> rfl
@[simp] theorem State.record_cells (s : State) (c : Nat) (a : Answer Result) : (s.record c a).cells = s.cells := by
  unfold State.record; split <;> rfl
@[simp] theorem State.record_result (s : State) (c : Nat) (a : Answer Result) : (s.record c a).result = s.result := by
  unfold State.record; split <;> rfl
@[simp] theorem State.record_log (s : State) (c : Nat) (a : Answer Result) :
    (s.record c a).log = s.log ++ [{ caller := c, outcome := a }] := by
  unfold State.record; split <;> rfl

@[simp] theorem State.recordResult_cfg (s : State) (c : Nat) : (s.recordResult c).cfg = s.cfg := by
  unfold State.recordResult; split <;> simp
@[simp] theorem State.recordResult_cells (s : State) (c : Nat) : (s.recordResult c).cells = s.cells := by
  unfold State.recordResult; split <;> simp
@[simp] theorem State.recordResult_result (s : State) (c : Nat) : (s.recordResult c).result = s.result := by
  unfold State.recordResult; split <;> simp

/-! ### The environment step writes at most a cell -/

@[simp] theorem State.environmentStep_cfg (s : State) (n : Nat) (v : Raw) : (s.environmentStep n v).cfg = s.cfg := by
  unfold State.environmentStep; split <;> rfl
@[simp] theorem State.environmentStep_result (s : State) (n : Nat) (v : Raw) :
    (s.environmentStep n v).result = s.result := by
  unfold State.environmentStep; split <;> rfl
@[simp] theorem State.environmentStep_pending (s : State) (n : Nat) (v : Raw) :
    (s.environmentStep n v).pending = s.pending := by
  unfold State.environmentStep; split <;> rfl
@[simp] theorem State.environmentStep_log (s : State) (n : Nat) (v : Raw) : (s.environmentStep n v).log = s.log := by
  unfold State.environmentStep; split <;> rfl
@[simp] theorem State.environmentStep_reports (s : State) (n : Nat) (v : Raw) :
    (s.environmentStep n v).reports = s.reports := by
  unfold State.environmentStep; split <;> rfl

/-! ### Reset -/

@[simp] theorem State.resetWith_cfg (cfg : Config) (f : Nat → Raw) : (State.resetWith cfg f).cfg = cfg := rfl
@[simp] theorem State.resetWith_cells (cfg : Config) (f : Nat → Raw) :
    (State.resetWith cfg f).cells = cfg.table.map fun r => (r.num, f r.num) := rfl
@[simp] theorem State.resetWith_result (cfg : Config) (f : Nat → Raw) : (State.resetWith cfg f).result = none := rfl
@[simp] theorem State.resetWith_pending (cfg : Config) (f : Nat → Raw) : (State.resetWith cfg f).pending = [] := rfl
@[simp] theorem State.resetWith_log (cfg : Config) (f : Nat → Raw) : (State.resetWith cfg f).log = [] := rfl
@[simp] theorem State.resetWith_reports (cfg : Config) (f : Nat → Raw) : (State.resetWith cfg f).reports = [] := rfl

end Sys2Proof.Machine
end

