-- ==== Sys2Proof/Laws/Storage.lean ====
section
/-! SUPPORT. Laws of the storage: read after write, and that every operation on storage keeps its canonical form (R30). -/

namespace Sys2Proof.Machine

theorem lookup_update_same (cells : List (Nat × Raw)) (n : Nat) (v : Raw) :
    (cells.map fun c => if c.1 = n then (c.1, v) else c).lookup n = (cells.lookup n).map fun _ => v := by
  induction cells with
  | nil => rfl
  | cons c cs ih =>
    obtain ⟨m, w⟩ := c
    by_cases h : m = n
    · subst h; simp [List.lookup]
    · have h' : (n == m) = false := by simp [Ne.symm h]
      simp [List.lookup, h, h', ih]

theorem lookup_update_other (cells : List (Nat × Raw)) (n m : Nat) (v : Raw) (hnm : m ≠ n) :
    (cells.map fun c => if c.1 = n then (c.1, v) else c).lookup m = cells.lookup m := by
  induction cells with
  | nil => rfl
  | cons c cs ih =>
    obtain ⟨k, w⟩ := c
    by_cases h : k = n
    · subst h
      have h' : (m == k) = false := by simp [hnm]
      simp [List.lookup, h', ih]
    · simp [List.lookup, h, ih]

/-- A cell that exists reads as what was last written to it. -/
theorem State.cell_setCell_same (s : State) (n : Nat) (v : Raw) : (s.setCell n v).cell n = (s.cell n).map fun _ => v :=
  lookup_update_same s.cells n v

/-- A write leaves every other cell alone (R31). -/
theorem State.cell_setCell_other (s : State) (n m : Nat) (v : Raw) (h : m ≠ n) : (s.setCell n v).cell m = s.cell m :=
  lookup_update_other s.cells n m v h

@[simp] theorem State.cell_deliver (s : State) (a : Answer Result) (n : Nat) : (s.deliver a).cell n = s.cell n := by
  simp [State.cell]

@[simp] theorem State.cell_recordResult (s : State) (c n : Nat) : (s.recordResult c).cell n = s.cell n := by
  simp [State.cell]

/-- A write changes no key of the storage map. -/
@[simp] theorem State.setCell_keys (s : State) (n : Nat) (v : Raw) :
    (s.setCell n v).cells.map Prod.fst = s.cells.map Prod.fst := by
  simp only [State.setCell, List.map_map]
  apply List.map_congr_left
  intro c _
  by_cases h : c.1 = n <;> simp [h]

theorem Memory.wf_iff (T : List Register) (cells : List (Nat × Raw)) :
    Memory.wf T cells = true ↔ tableWf T = true ∧ cells.map Prod.fst = T.map Register.num := by
  simp [Memory.wf]

/-- Writing a cell keeps the storage in canonical form. -/
theorem State.setCell_wf (s : State) (n : Nat) (v : Raw) (h : s.Inv) : (s.setCell n v).Inv := by
  rw [State.Inv, Memory.wf_iff] at *
  simpa using h

/-- Delivering an outcome keeps the storage in canonical form. -/
theorem State.deliver_wf (s : State) (a : Answer Result) (h : s.Inv) : (s.deliver a).Inv := by
  simpa [State.Inv] using h

/-- An environment step keeps the storage in canonical form. -/
theorem State.environmentStep_wf (s : State) (n : Nat) (v : Raw) (h : s.Inv) : (s.environmentStep n v).Inv := by
  unfold State.environmentStep
  split
  · exact s.setCell_wf n v h
  · exact h

/-- The runner keeps the storage in canonical form. -/
theorem State.recordResult_wf (s : State) (c : Nat) (h : s.Inv) : (s.recordResult c).Inv := by
  simpa [State.Inv] using h

/-- After reset with a well-formed table the storage is in canonical form. -/
theorem State.resetWith_wf (cfg : Config) (f : Nat → Raw) (h : tableWf cfg.table = true) :
    (State.resetWith cfg f).Inv := by
  rw [State.Inv, Memory.wf_iff]
  exact ⟨h, by simp⟩

/-- A key of the storage map has a cell. -/
theorem lookup_isSome_of_mem_keys (cells : List (Nat × Raw)) (n : Nat) (h : n ∈ cells.map Prod.fst) :
    ∃ v, cells.lookup n = some v := by
  induction cells with
  | nil => simp at h
  | cons c cs ih =>
    obtain ⟨m, w⟩ := c
    by_cases hm : n = m
    · exact ⟨w, by simp [List.lookup, hm]⟩
    · have : (n == m) = false := by simp [hm]
      simp only [List.map_cons, List.mem_cons, hm, false_or] at h
      simpa [List.lookup, this] using ih h

/-- Every Register of the table has a cell (R30). -/
theorem State.Inv.cell_of_mem {s : State} (h : s.Inv) {r : Register} (hr : r ∈ s.cfg.table) :
    ∃ v, s.cell r.num = some v := by
  rw [State.Inv, Memory.wf_iff] at h
  exact lookup_isSome_of_mem_keys _ _ (h.2 ▸ List.mem_map_of_mem hr)

/-- No other number has one (R30). -/
theorem State.Inv.cell_none {s : State} (h : s.Inv) {n : Nat} (hn : ∀ r ∈ s.cfg.table, r.num ≠ n) : s.cell n = none := by
  rw [State.Inv, Memory.wf_iff] at h
  have hk : n ∉ s.cells.map Prod.fst := by
    rw [h.2]; simpa using fun r hr => hn r hr
  unfold State.cell
  generalize s.cells = cells at hk
  induction cells with
  | nil => rfl
  | cons c cs ih =>
    obtain ⟨m, w⟩ := c
    simp only [List.map_cons, List.mem_cons, not_or] at hk
    have : (n == m) = false := by simp [hk.1]
    simpa [List.lookup, this] using ih hk.2

end Sys2Proof.Machine
end

