-- ==== Sys2Proof/Laws/Words.lean ====
section
/-! SUPPORT. Laws of words, word pairs and the integer primitives: each says once, in integers, what an operation on bits computes. -/

namespace Sys2Proof.Machine

/-- `wrap32` is the remainder modulo 2^32 (R10). -/
theorem wrap32_toNat (v : Int) : ((wrap32 v).toNat : Int) = v % 4294967296 := by
  simp [wrap32, BitVec.toNat_ofInt]
  omega

/-- The low word is the value modulo 2^16 (R52). -/
theorem lowWord_toNat (u : Raw) : (lowWord u).toNat = u.toNat % 65536 := by
  simp [lowWord, BitVec.extractLsb'_toNat]

/-- The high word is the value divided by 2^16 (R52). -/
theorem highWord_toNat (u : Raw) : (highWord u).toNat = u.toNat / 65536 := by
  have := u.isLt
  simp only [highWord, BitVec.extractLsb'_toNat, Nat.shiftRight_eq_div_pow]
  omega

/-- A pair spells `lo + 65536*hi` (R87). -/
theorem rawOf_toNat (w : WordPair) : (rawOf w).toNat = w.lo.toNat + 65536 * w.hi.toNat := by
  have h := w.lo.isLt
  simp only [rawOf, BitVec.toNat_append]
  rw [← Nat.shiftLeft_add_eq_or_of_lt h, Nat.shiftLeft_eq]
  omega

/-- Splitting after joining gives the pair back (R124). -/
theorem wordsOf_rawOf (w : WordPair) : wordsOf (rawOf w) = w := by
  have h := rawOf_toNat w
  have h1 := w.lo.isLt
  have h2 := w.hi.isLt
  obtain ⟨lo, hi⟩ := w
  simp only [wordsOf, WordPair.mk.injEq]
  constructor
  · apply BitVec.eq_of_toNat_eq; rw [lowWord_toNat, h]; simp only at *; omega
  · apply BitVec.eq_of_toNat_eq; rw [highWord_toNat, h]; simp only at *; omega

/-- Joining after splitting gives the value back (R52, R124). -/
theorem rawOf_wordsOf (u : Raw) : rawOf (wordsOf u) = u := by
  apply BitVec.eq_of_toNat_eq
  rw [rawOf_toNat]
  simp only [wordsOf, lowWord_toNat, highWord_toNat]
  omega

/-- Joining what `split32` gives is wrapping (R125, R127). -/
@[simp] theorem rawOf_split32 (v : Int) : rawOf (split32 v) = wrap32 v := rawOf_wordsOf _

theorem split32_lo (v : Int) : ((split32 v).lo.toNat : Int) = v % 4294967296 % 65536 := by
  have h := wrap32_toNat v
  simp only [split32, wordsOf, lowWord_toNat]
  omega

theorem split32_hi (v : Int) : ((split32 v).hi.toNat : Int) = v % 4294967296 / 65536 := by
  have h := wrap32_toNat v
  simp only [split32, wordsOf, highWord_toNat]
  omega

/-- The two's complement reading by its definition in R10. -/
theorem toSigned32_eq (u : Raw) : toSigned32 u = if u.toNat < 2147483648 then (u.toNat : Int) else u.toNat - 4294967296 := by
  have := u.isLt
  simp only [toSigned32, BitVec.toInt_eq_toNat_cond]
  split <;> split <;> omega

/-- Wrapping a `U32` changes nothing. -/
theorem wrap32_natCast (u : Raw) : wrap32 (u.toNat : Int) = u := by
  apply BitVec.eq_of_toNat_eq
  have := wrap32_toNat (u.toNat : Int)
  have := u.isLt
  omega

/-- Wrapping the signed reading of a value gives the value back. -/
theorem wrap32_toSigned32 (u : Raw) : wrap32 (toSigned32 u) = u := by
  apply BitVec.eq_of_toNat_eq
  have h := wrap32_toNat (toSigned32 u)
  have := u.isLt
  by_cases hu : u.toNat < 2147483648
  · have e : toSigned32 u = u.toNat := by rw [toSigned32_eq, if_pos hu]
    rw [e] at h ⊢; omega
  · have e : toSigned32 u = u.toNat - 4294967296 := by rw [toSigned32_eq, if_neg hu]
    rw [e] at h ⊢; omega

/-- Wrapping the reading of a value by either kind gives the value back. -/
theorem wrap32_readRaw (kind : Kind) (u : Raw) : wrap32 (readRaw kind u) = u := by
  cases kind
  · exact wrap32_natCast u
  · exact wrap32_toSigned32 u

/-- The words of a pair given as integers come back as that pair. -/
theorem pairOperand_words (lo hi : Word) : pairOperand lo.toNat hi.toNat = .ok { lo := lo, hi := hi } := by
  have h1 := lo.isLt
  have h2 := hi.isLt
  have l : wordOperand lo.toNat = some lo := by
    simp only [wordOperand]; rw [if_pos (by omega)]; simp
  have h : wordOperand hi.toNat = some hi := by
    simp only [wordOperand]; rw [if_pos (by omega)]; simp
  simp [pairOperand, l, h]

/-- Two operands inside U16 make the pair of those words (R95). -/
theorem pairOperand_ok (lo hi : Int) (hl : 0 ≤ lo ∧ lo ≤ 65535) (hh : 0 ≤ hi ∧ hi ≤ 65535) :
    ∃ w, pairOperand lo hi = .ok w ∧ (w.lo.toNat : Int) = lo ∧ (w.hi.toNat : Int) = hi := by
  refine ⟨{ lo := BitVec.ofInt 16 lo, hi := BitVec.ofInt 16 hi }, ?_, ?_, ?_⟩
  · simp only [pairOperand, wordOperand, if_pos hl, if_pos hh]
  · simp [BitVec.toNat_ofInt]; omega
  · simp [BitVec.toNat_ofInt]; omega

/-- An operand outside U16 is refused (R95, R214). -/
theorem pairOperand_refused (lo hi : Int) (h : ¬((0 ≤ lo ∧ lo ≤ 65535) ∧ (0 ≤ hi ∧ hi ≤ 65535))) :
    pairOperand lo hi = .refused .wordRange := by
  simp only [pairOperand, wordOperand]
  by_cases hl : 0 ≤ lo ∧ lo ≤ 65535
  · by_cases hh : 0 ≤ hi ∧ hi ≤ 65535
    · exact absurd ⟨hl, hh⟩ h
    · simp [if_pos hl, if_neg hh]
  · simp [if_neg hl]

/-- The weighted sum starting at weight `2^i`. -/
theorem weightedSumFrom_eq (i : Nat) (bits : List Bool) : weightedSumFrom i bits = 2 ^ i * implodeBits bits := by
  induction bits generalizing i with
  | nil => simp [weightedSumFrom, implodeBits]
  | cons b bs ih =>
    simp only [implodeBits, weightedSumFrom] at *
    rw [ih (i + 1), ih 1, Nat.shiftLeft_eq, Nat.shiftLeft_eq]
    ring

/-- `IMPLODE` position by position. -/
theorem implodeBits_cons (b : Bool) (bs : List Bool) : implodeBits (b :: bs) = b.toNat + 2 * implodeBits bs := by
  have h := weightedSumFrom_eq 1 bs
  simp only [implodeBits, weightedSumFrom] at *
  rw [h]; simp

theorem implodeBits_nil : implodeBits [] = 0 := rfl

@[simp] theorem explodeBits_length (x n : Nat) : (explodeBits x n).length = n := by simp [explodeBits]

theorem explodeBits_get (x n i : Nat) (h : i < n) : (explodeBits x n)[i]? = some (x.testBit i) := by
  simp [explodeBits, h]

end Sys2Proof.Machine
end

