-- ==== Sys2Proof/Laws/Ops.lean ====
section
/-! SUPPORT. For each shared operation, once, everything it can do. -/

namespace Sys2Proof.Machine

/-! ### Sequencing -/

@[simp] theorem Answer.andThen_ok {α β : Type} (v : α) (f : α → Answer β) : (Answer.ok v).andThen f = f v := rfl
@[simp] theorem Answer.andThen_fail {α β : Type} (e : Failure) (f : α → Answer β) :
    (Answer.fail e).andThen f = .fail e := rfl
@[simp] theorem Answer.andThen_refused {α β : Type} (r : Reason) (f : α → Answer β) :
    (Answer.refused r).andThen f = .refused r := rfl
@[simp] theorem Answer.map_ok {α β : Type} (v : α) (f : α → β) : (Answer.ok v).map f = .ok (f v) := rfl
@[simp] theorem Answer.map_fail {α β : Type} (e : Failure) (f : α → β) : (Answer.fail e : Answer α).map f = .fail e := rfl
@[simp] theorem Answer.map_refused {α β : Type} (r : Reason) (f : α → β) :
    (Answer.refused r : Answer α).map f = .refused r := rfl
@[simp] theorem Answer.thenAccess_ok {α β : Type} (v : α) (f : α → Access β) : (Answer.ok v).thenAccess f = f v := rfl
@[simp] theorem Answer.thenAccess_fail {α β : Type} (e : Failure) (f : α → Access β) :
    (Answer.fail e).thenAccess f = .ok (.fail e) := rfl
@[simp] theorem Answer.thenAccess_refused {α β : Type} (r : Reason) (f : α → Access β) :
    (Answer.refused r).thenAccess f = .ok (.refused r) := rfl
@[simp] theorem Access.andThen_ok {α β : Type} (x : Answer α) (f : α → Answer β) :
    Access.andThen (.ok x) f = .ok (x.andThen f) := rfl
@[simp] theorem Access.andThen_error {α β : Type} (e : Fault) (f : α → Answer β) :
    Access.andThen (.error e : Access α) f = .error e := rfl

/-! ### Lookups -/

/-- A lookup finds a Register of the table, or fails with the operand as given; it is never refused (R210). -/
theorem resolve_cases (T : List Register) (key : RegKey) :
    (∃ r ∈ T, resolve T key = .ok r) ∨ resolve T key = .fail (.unknownRegister key) := by
  unfold resolve
  dsimp only
  split
  · rename_i r h
    left
    refine ⟨r, ?_, rfl⟩
    cases key <;> exact List.mem_of_find?_eq_some h
  · exact .inr rfl

theorem inSpan_iff (a : Int) (r : Register) : inSpan a r = true ↔ 2 * (r.num : Int) ≤ a ∧ a ≤ 2 * (r.num : Int) + 1 := by
  unfold inSpan lowAddr
  rw [Bool.and_eq_true]
  exact and_congr decide_eq_true_iff decide_eq_true_iff

theorem registerAt_some {T : List Register} {a : Int} {r : Register} (h : registerAt T a = some r) :
    r ∈ T ∧ 2 * (r.num : Int) ≤ a ∧ a ≤ 2 * (r.num : Int) + 1 :=
  ⟨List.mem_of_find?_eq_some h, (inSpan_iff a r).1 (List.find?_some h)⟩

theorem registerAt_none {T : List Register} {a : Int} (h : registerAt T a = none) (r : Register) (hr : r ∈ T) :
    ¬(2 * (r.num : Int) ≤ a ∧ a ≤ 2 * (r.num : Int) + 1) := by
  have := List.find?_eq_none.1 h r hr
  rwa [inSpan_iff] at this

/-- Where `f` tells any two entries apart, an entry is known by its `f`. -/
theorem eq_of_pairwise_ne {α β : Type} {f : α → β} {T : List α} (h : T.Pairwise fun a b => f a ≠ f b) {a b : α}
    (ha : a ∈ T) (hb : b ∈ T) (e : f a = f b) : a = b := by
  induction T with
  | nil => simp at ha
  | cons c cs ih =>
    rw [List.pairwise_cons] at h
    rcases List.mem_cons.1 ha with hac | hac <;> rcases List.mem_cons.1 hb with hbc | hbc
    · rw [hac, hbc]
    · exact absurd (hac ▸ e) (h.1 b hbc)
    · exact absurd (hbc ▸ e.symm) (h.1 a hac)
    · exact ih h.2 hac hbc

theorem tableWf_pairwise {T : List Register} (h : tableWf T = true) :
    T.Pairwise fun r r' => r.num < r'.num ∧ r.name ≠ r'.name := by
  simpa [tableWf] using h

/-- In a well-formed table a number belongs to one Register. -/
theorem tableWf_num_inj {T : List Register} (h : tableWf T = true) {r r' : Register} (hr : r ∈ T) (hr' : r' ∈ T)
    (hn : r.num = r'.num) : r = r' :=
  eq_of_pairwise_ne (f := Register.num) ((tableWf_pairwise h).imp fun hab => Nat.ne_of_lt hab.1) hr hr' hn

/-- In a well-formed table a name belongs to one Register. -/
theorem tableWf_name_inj {T : List Register} (h : tableWf T = true) {r r' : Register} (hr : r ∈ T) (hr' : r' ∈ T)
    (hn : r.name = r'.name) : r = r' :=
  eq_of_pairwise_ne (f := Register.name) ((tableWf_pairwise h).imp fun hab => hab.2) hr hr' hn

/-- A Register of a well-formed table is found at both addresses of its span (R172). -/
theorem registerAt_of_mem {T : List Register} (h : tableWf T = true) {r : Register} (hr : r ∈ T) {a : Int}
    (ha : 2 * (r.num : Int) ≤ a ∧ a ≤ 2 * (r.num : Int) + 1) : registerAt T a = some r := by
  cases hf : registerAt T a with
  | none => exact absurd ha (registerAt_none hf r hr)
  | some r' =>
    obtain ⟨hm, h1, h2⟩ := registerAt_some hf
    rw [tableWf_num_inj h hm hr (by omega)]

/-- A Register of a well-formed table is found by its name (R171). -/
theorem registerNamed_of_mem {T : List Register} (h : tableWf T = true) {r : Register} (hr : r ∈ T) :
    registerNamed T r.name = some r := by
  cases hf : registerNamed T r.name with
  | none => exact absurd (List.find?_eq_none.1 hf r hr) (by simp)
  | some r' =>
    have hm := List.mem_of_find?_eq_some hf
    have hn : (r'.name == r.name) = true := List.find?_some (p := fun q : Register => q.name == r.name) hf
    rw [tableWf_name_inj h hm hr (by simpa using hn)]

/-! ### The port -/

/-- The address check passes at the low word's address under either policy (R193). -/
@[simp] theorem checkPairAddress_low (cfg : Config) (r : Register) : checkPairAddress cfg r (lowAddr r) = .ok () := by
  simp [checkPairAddress]

/-- What `READWORDS` can do to a state in canonical form (R185). -/
theorem readPort_cases (s : State) (a : Int) (h : s.Inv) :
    (∃ r ∈ s.cfg.table, ∃ v, resolve s.cfg.table (.addr a) = .ok r ∧ s.cell r.num = some v ∧
        checkPairAddress s.cfg r a = .ok () ∧ readPort s a = .ok (.ok (wordsOf v))) ∨
      (∃ r ∈ s.cfg.table, resolve s.cfg.table (.addr a) = .ok r ∧ a = lowAddr r + 1 ∧ s.cfg.oddPair = .refuse ∧
        readPort s a = .ok (.refused .oddPairAddress)) ∨
      (resolve s.cfg.table (.addr a) = .fail (.unknownRegister (.addr a)) ∧
        readPort s a = .ok (.fail (.unknownRegister (.addr a)))) := by
  rcases resolve_cases s.cfg.table (.addr a) with ⟨r, hr, he⟩ | he
  · by_cases hodd : a = lowAddr r + 1 ∧ s.cfg.oddPair = .refuse
    · exact .inr (.inl ⟨r, hr, he, hodd.1, hodd.2, by
        have hc : checkPairAddress s.cfg r a = .refused .oddPairAddress := by simp only [checkPairAddress, if_pos hodd]
        simp [readPort, he, hc]⟩)
    · obtain ⟨v, hv⟩ := h.cell_of_mem hr
      have hc : checkPairAddress s.cfg r a = .ok () := by simp only [checkPairAddress, if_neg hodd]
      exact .inl ⟨r, hr, v, he, hv, hc, by simp [readPort, he, hc, hv]⟩
  · exact .inr (.inr ⟨he, by simp [readPort, he]⟩)

/-- Where `WRITEWORDS` succeeds it has replaced the one cell of the Register found (R186). -/
theorem writePort_ok {s s' : State} {a : Int} {words : Answer WordPair} (h : writePort s a words = .ok (.ok s')) :
    ∃ r ∈ s.cfg.table, ∃ w, resolve s.cfg.table (.addr a) = .ok r ∧ words = .ok w ∧ checkPairAddress s.cfg r a = .ok () ∧
      s' = s.setCell r.num (rawOf w) := by
  rcases resolve_cases s.cfg.table (.addr a) with ⟨r, hr, he⟩ | he
  · refine ⟨r, hr, ?_⟩
    rcases words with w | f | q <;> rcases hc : checkPairAddress s.cfg r a with u | f' | q' <;>
      rcases hw : s.cfg.wordCheck <;> simp [writePort, he, hc, hw] at h
    all_goals
      refine ⟨w, he, rfl, rfl, ?_⟩
      split at h <;> simp_all
  · simp [writePort, he] at h

/-- A write at the low word's address of a Register of the table replaces its cell (R186, R193). -/
theorem writePort_low (s : State) (r : Register) (w : WordPair) (h : s.Inv) (hr : r ∈ s.cfg.table) :
    writePort s (lowAddr r) (.ok w) = .ok (.ok (s.setCell r.num (rawOf w))) := by
  obtain ⟨v, hv⟩ := h.cell_of_mem hr
  have hT : tableWf s.cfg.table = true := ((Memory.wf_iff _ _).1 h).1
  have he : resolve s.cfg.table (.addr (lowAddr r)) = .ok r := by
    simp [resolve, registerAt_of_mem hT hr (a := lowAddr r) (by simp [lowAddr])]
  rcases hw : s.cfg.wordCheck <;> simp [writePort, he, hw, hv]

/-- A read at the low word's address of a Register of the table gives its cell's words (R185, R193). -/
theorem readPort_low (s : State) (r : Register) (v : Raw) (h : s.Inv) (hr : r ∈ s.cfg.table)
    (hv : s.cell r.num = some v) : readPort s (lowAddr r) = .ok (.ok (wordsOf v)) := by
  have hT : tableWf s.cfg.table = true := ((Memory.wf_iff _ _).1 h).1
  have he : resolve s.cfg.table (.addr (lowAddr r)) = .ok r := by
    simp [resolve, registerAt_of_mem hT hr (a := lowAddr r) (by simp [lowAddr])]
  simp [readPort, he, hv]

/-- What a typed read is on a state in canonical form: a failed lookup, or the decode of the cell (R187). -/
theorem csrRead_cases (s : State) (key : RegKey) (h : s.Inv) :
    (∃ r ∈ s.cfg.table, ∃ v, resolve s.cfg.table key = .ok r ∧ s.cell r.num = some v ∧
        csrRead s key = .ok (decodeBy s.cfg r.codec (wordsOf v))) ∨
      (resolve s.cfg.table key = .fail (.unknownRegister key) ∧ csrRead s key = .ok (.fail (.unknownRegister key))) := by
  rcases resolve_cases s.cfg.table key with ⟨r, hr, he⟩ | he
  · obtain ⟨v, hv⟩ := h.cell_of_mem hr
    exact .inl ⟨r, hr, v, he, hv, by simp [csrRead, he, readPort_low s r v h hr hv]⟩
  · exact .inr ⟨he, by simp [csrRead, he]⟩

/-- What a typed write is on a state in canonical form: a failed lookup, a refused or failed encode, or the cell replaced by
the encoded words (R188). -/
theorem csrWrite_cases (s : State) (key : RegKey) (v : Value) (h : s.Inv) :
    (∃ r ∈ s.cfg.table, ∃ w, resolve s.cfg.table key = .ok r ∧ encodeBy s.cfg r.codec v = .ok w ∧
        csrWrite s key v = .ok (.ok (s.setCell r.num (rawOf w)))) ∨
      (∃ r ∈ s.cfg.table, ∃ q, resolve s.cfg.table key = .ok r ∧ encodeBy s.cfg r.codec v = .refused q ∧
        csrWrite s key v = .ok (.refused q)) ∨
      (∃ r ∈ s.cfg.table, ∃ f, resolve s.cfg.table key = .ok r ∧ encodeBy s.cfg r.codec v = .fail f ∧
        csrWrite s key v = .ok (.fail f)) ∨
      (resolve s.cfg.table key = .fail (.unknownRegister key) ∧ csrWrite s key v = .ok (.fail (.unknownRegister key))) := by
  rcases resolve_cases s.cfg.table key with ⟨r, hr, he⟩ | he
  · rcases hc : encodeBy s.cfg r.codec v with w | f | q
    · exact .inl ⟨r, hr, w, he, hc, by simp [csrWrite, he, hc, writePort_low s r w h hr]⟩
    · exact .inr (.inr (.inl ⟨r, hr, f, he, hc, by simp [csrWrite, he, hc]⟩))
    · exact .inr (.inl ⟨r, hr, q, he, hc, by simp [csrWrite, he, hc]⟩)
  · exact .inr (.inr (.inr ⟨he, by simp [csrWrite, he]⟩))

/-- Where a typed write succeeds, in any state, it has replaced one cell of a Register of the table. -/
theorem csrWrite_ok {s s' : State} {key : RegKey} {v : Value} (h : csrWrite s key v = .ok (.ok s')) :
    ∃ n u, s' = s.setCell n u := by
  unfold csrWrite at h
  rcases resolve_cases s.cfg.table key with ⟨r, hr, he⟩ | he
  · rcases hc : encodeBy s.cfg r.codec v with w | f | q
    · simp only [he, hc, Answer.thenAccess_ok] at h
      obtain ⟨r', -, w', -, -, -, hs⟩ := writePort_ok h
      exact ⟨_, _, hs⟩
    · simp [he, hc] at h
    · simp [he, hc] at h
  · simp [he] at h

/-! ### The ends of an operation -/

/-- An operation that ends in `replyRead` changes the result port alone. -/
theorem State.replyRead_next {s t : State} {x : Access Result} (h : s.replyRead x = .next t) :
    ∃ ans, x = .ok ans ∧ t = s.deliver ans := by
  cases x with
  | error e => simp [State.replyRead] at h
  | ok ans => exact ⟨ans, rfl, by simpa [State.replyRead] using h.symm⟩

/-- An operation that ends in `replyWrite` delivers `done` in the state written, or its failure or refusal in the old. -/
theorem State.replyWrite_next {s t : State} {x : Access State} (h : s.replyWrite x = .next t) :
    (∃ s', x = .ok (.ok s') ∧ t = s'.deliver (.ok .done)) ∨
      (∃ f, x = .ok (.fail f) ∧ t = s.deliver (.fail f)) ∨
      (∃ q, x = .ok (.refused q) ∧ t = s.deliver (.refused q)) := by
  rcases x with e | (s' | f | q)
  · simp [State.replyWrite] at h
  · exact .inl ⟨s', rfl, by simpa [State.replyWrite] using h.symm⟩
  · exact .inr (.inl ⟨f, rfl, by simpa [State.replyWrite] using h.symm⟩)
  · exact .inr (.inr ⟨q, rfl, by simpa [State.replyWrite] using h.symm⟩)

end Sys2Proof.Machine
end

