-- ==== Sys2Proof/Laws/PerInstr.lean ====
section
/-! SUPPORT. One lemma per operation: its opcode is one of the numbers of R91's map. -/

namespace Sys2Proof.Laws

/-- The opcode numbers of R91. -/
def opcodeNumbers : List Nat :=
  [0x01, 0x02, 0x10, 0x11, 0x12, 0x13, 0x20, 0x21, 0x22, 0x23, 0x24, 0x25, 0x26, 0x27, 0x28, 0x29, 0x2E, 0x2F, 0x30, 0x31,
   0x32, 0x33, 0x40, 0x41, 0x48, 0x49, 0x4A, 0x4B, 0x4C, 0x4D]

/-- The operation's opcode is a number of the opcode map (R91). -/
def OpcodeRow.Statement (i : Instr) : Prop := i.opcode.toNat ∈ opcodeNumbers

theorem OpcodeRow.explode (x n : Int) : OpcodeRow.Statement (.explode x n) := by
  simp [OpcodeRow.Statement, Instr.opcode, opcodeNumbers]
theorem OpcodeRow.implode (bits : List Bool) : OpcodeRow.Statement (.implode bits) := by
  simp [OpcodeRow.Statement, Instr.opcode, opcodeNumbers]
theorem OpcodeRow.toWordsU (v : Int) : OpcodeRow.Statement (.toWordsU v) := by
  simp [OpcodeRow.Statement, Instr.opcode, opcodeNumbers]
theorem OpcodeRow.toWordsS (v : Int) : OpcodeRow.Statement (.toWordsS v) := by
  simp [OpcodeRow.Statement, Instr.opcode, opcodeNumbers]
theorem OpcodeRow.fromWordsU (lo hi : Int) : OpcodeRow.Statement (.fromWordsU lo hi) := by
  simp [OpcodeRow.Statement, Instr.opcode, opcodeNumbers]
theorem OpcodeRow.fromWordsS (lo hi : Int) : OpcodeRow.Statement (.fromWordsS lo hi) := by
  simp [OpcodeRow.Statement, Instr.opcode, opcodeNumbers]
theorem OpcodeRow.decRawU (lo hi : Int) : OpcodeRow.Statement (.decRawU lo hi) := by
  simp [OpcodeRow.Statement, Instr.opcode, opcodeNumbers]
theorem OpcodeRow.encRawU (n : Int) : OpcodeRow.Statement (.encRawU n) := by
  simp [OpcodeRow.Statement, Instr.opcode, opcodeNumbers]
theorem OpcodeRow.decRawS (lo hi : Int) : OpcodeRow.Statement (.decRawS lo hi) := by
  simp [OpcodeRow.Statement, Instr.opcode, opcodeNumbers]
theorem OpcodeRow.encRawS (n : Int) : OpcodeRow.Statement (.encRawS n) := by
  simp [OpcodeRow.Statement, Instr.opcode, opcodeNumbers]
theorem OpcodeRow.decScaled (k : Rat) (kind : Kind) (lo hi : Int) : OpcodeRow.Statement (.decScaled k kind lo hi) := by
  simp [OpcodeRow.Statement, Instr.opcode, opcodeNumbers]
theorem OpcodeRow.encScaled (k : Rat) (kind : Kind) (p : Phys) : OpcodeRow.Statement (.encScaled k kind p) := by
  simp [OpcodeRow.Statement, Instr.opcode, opcodeNumbers]
theorem OpcodeRow.decMode (lo hi : Int) : OpcodeRow.Statement (.decMode lo hi) := by
  simp [OpcodeRow.Statement, Instr.opcode, opcodeNumbers]
theorem OpcodeRow.encMode (m : Mode) : OpcodeRow.Statement (.encMode m) := by
  simp [OpcodeRow.Statement, Instr.opcode, opcodeNumbers]
theorem OpcodeRow.decBits (lo hi : Int) : OpcodeRow.Statement (.decBits lo hi) := by
  simp [OpcodeRow.Statement, Instr.opcode, opcodeNumbers]
theorem OpcodeRow.encBits (b : List Bool) : OpcodeRow.Statement (.encBits b) := by
  simp [OpcodeRow.Statement, Instr.opcode, opcodeNumbers]
theorem OpcodeRow.decode (r : Register) (lo hi : Int) : OpcodeRow.Statement (.decode r lo hi) := by
  simp [OpcodeRow.Statement, Instr.opcode, opcodeNumbers]
theorem OpcodeRow.encode (r : Register) (v : Value) : OpcodeRow.Statement (.encode r v) := by
  simp [OpcodeRow.Statement, Instr.opcode, opcodeNumbers]
theorem OpcodeRow.addr (r : Register) : OpcodeRow.Statement (.addr r) := by
  simp [OpcodeRow.Statement, Instr.opcode, opcodeNumbers]
theorem OpcodeRow.resolveName (name : String) : OpcodeRow.Statement (.resolveName name) := by
  simp [OpcodeRow.Statement, Instr.opcode, opcodeNumbers]
theorem OpcodeRow.resolveAddr (a : Int) : OpcodeRow.Statement (.resolveAddr a) := by
  simp [OpcodeRow.Statement, Instr.opcode, opcodeNumbers]
theorem OpcodeRow.resolveNum (n : Int) : OpcodeRow.Statement (.resolveNum n) := by
  simp [OpcodeRow.Statement, Instr.opcode, opcodeNumbers]
theorem OpcodeRow.readWords (a : Int) : OpcodeRow.Statement (.readWords a) := by
  simp [OpcodeRow.Statement, Instr.opcode, opcodeNumbers]
theorem OpcodeRow.writeWords (a lo hi : Int) : OpcodeRow.Statement (.writeWords a lo hi) := by
  simp [OpcodeRow.Statement, Instr.opcode, opcodeNumbers]
theorem OpcodeRow.csrReadName (name : String) : OpcodeRow.Statement (.csrReadName name) := by
  simp [OpcodeRow.Statement, Instr.opcode, opcodeNumbers]
theorem OpcodeRow.csrWriteName (name : String) (v : Value) : OpcodeRow.Statement (.csrWriteName name v) := by
  simp [OpcodeRow.Statement, Instr.opcode, opcodeNumbers]
theorem OpcodeRow.csrReadAddr (a : Int) : OpcodeRow.Statement (.csrReadAddr a) := by
  simp [OpcodeRow.Statement, Instr.opcode, opcodeNumbers]
theorem OpcodeRow.csrWriteAddr (a : Int) (v : Value) : OpcodeRow.Statement (.csrWriteAddr a v) := by
  simp [OpcodeRow.Statement, Instr.opcode, opcodeNumbers]
theorem OpcodeRow.csrReadNum (n : Int) : OpcodeRow.Statement (.csrReadNum n) := by
  simp [OpcodeRow.Statement, Instr.opcode, opcodeNumbers]
theorem OpcodeRow.csrWriteNum (n : Int) (v : Value) : OpcodeRow.Statement (.csrWriteNum n v) := by
  simp [OpcodeRow.Statement, Instr.opcode, opcodeNumbers]

end Sys2Proof.Laws
end

