-- ==== Sys2Proof/Tests/Slice0.lean ====
section
/-! SUPPORT. Tests: ill-formed operations, opcodes written out from R91, the spec's own vectors (spec/95_test_vectors.md), and for every statement with hypotheses a concrete case that meets them. -/

namespace Sys2Proof.Tests

open Sys2Proof.Machine

set_option Elab.async false

/-! ### Small states -/

/-- The start state of spec/95's table for the bus port and typed access; the cells it does not list hold 0. -/
def startValues (n : Nat) : Raw :=
  if n = 198 then 0x000003E8 else if n = 2 then 0x00000005 else if n = 35 then 0x00010004
  else if n = 10 then 0xFFFFFFFF else 0

def startWith (cfg : Config) : State := State.resetWith cfg startValues

def start : State := startWith fixtureConfig

def startAlias : State := startWith { fixtureConfig with oddPair := .alias_ }

def start64 : State := startWith { fixtureConfig with numerics := .binary64 }

/-- The start state with `pending` given. -/
def startPending (es : List Event) : State := { start with pending := es }

def outcomeOf (x : Host.Outcome State Fault Refusal) : Option (Answer Result) :=
  match x with
  | .next t    => t.result
  | .fault _   => none
  | .refused _ => none

def cellOf (x : Host.Outcome State Fault Refusal) (n : Nat) : Option Raw :=
  match x with
  | .next t    => t.cell n
  | .fault _   => none
  | .refused _ => none

def busRegister : Register := { num := 198, name := "U_BUS", codec := .scaled (125 / 111) .unsigned32 }
def modeRegister : Register := { num := 2, name := "MODE_REG", codec := .mode }
def signedRegister : Register := { num := 10, name := "FIX_S32", codec := .rawSigned }
def flagRegister : Register := { num := 35, name := "FIX_FLAGS", codec := .bitfield }
def rawRegister : Register := { num := 1, name := "FIX_001" }

/-! ### WellFormed: for each check an ill-formed operation that it refuses -/

theorem test_illFormed_explode_width_negative : Instr.wellFormed (.explode 0 (-1)) = false := by decide +kernel
theorem test_illFormed_explode_value_negative : Instr.wellFormed (.explode (-1) 4) = false := by decide +kernel
theorem test_illFormed_explode_value_too_big : Instr.wellFormed (.explode 16 4) = false := by decide +kernel
theorem test_illFormed_fromWordsU_low : Instr.wellFormed (.fromWordsU 65536 0) = false := by decide +kernel
theorem test_illFormed_fromWordsU_high : Instr.wellFormed (.fromWordsU 0 (-1)) = false := by decide +kernel
theorem test_illFormed_fromWordsS_low : Instr.wellFormed (.fromWordsS (-1) 0) = false := by decide +kernel
theorem test_illFormed_fromWordsS_high : Instr.wellFormed (.fromWordsS 0 65536) = false := by decide +kernel
theorem test_illFormed_decRawU_low : Instr.wellFormed (.decRawU 65536 0) = false := by decide +kernel
theorem test_illFormed_decRawU_high : Instr.wellFormed (.decRawU 0 65536) = false := by decide +kernel
theorem test_illFormed_decRawS_low : Instr.wellFormed (.decRawS (-1) 0) = false := by decide +kernel
theorem test_illFormed_decRawS_high : Instr.wellFormed (.decRawS 0 65536) = false := by decide +kernel
theorem test_illFormed_decScaled_factor : Instr.wellFormed (.decScaled 0 .unsigned32 0 0) = false := by decide +kernel
theorem test_illFormed_decScaled_low :
    Instr.wellFormed (.decScaled 1 .unsigned32 65536 0) = false := by decide +kernel
theorem test_illFormed_decScaled_high : Instr.wellFormed (.decScaled 1 .signed32 0 65536) = false := by decide +kernel
theorem test_illFormed_encScaled_factor :
    Instr.wellFormed (.encScaled (-1) .signed32 (.finite 1)) = false := by decide +kernel
theorem test_illFormed_encScaled_value : Instr.wellFormed (.encScaled 1 .signed32 .nan) = false := by decide +kernel
theorem test_illFormed_decMode_low : Instr.wellFormed (.decMode 65536 0) = false := by decide +kernel
theorem test_illFormed_decMode_high : Instr.wellFormed (.decMode 0 65536) = false := by decide +kernel
theorem test_illFormed_decBits_low : Instr.wellFormed (.decBits (-1) 0) = false := by decide +kernel
theorem test_illFormed_decBits_high : Instr.wellFormed (.decBits 0 65536) = false := by decide +kernel
theorem test_illFormed_encBits_length : Instr.wellFormed (.encBits [true]) = false := by decide +kernel
theorem test_illFormed_decode_factor :
    Instr.wellFormed (.decode { busRegister with codec := .scaled 0 .unsigned32 } 0 0) = false := by decide +kernel
theorem test_illFormed_decode_low : Instr.wellFormed (.decode busRegister 65536 0) = false := by decide +kernel
theorem test_illFormed_decode_high : Instr.wellFormed (.decode busRegister 0 65536) = false := by decide +kernel
theorem test_illFormed_encode_factor :
    Instr.wellFormed (.encode { busRegister with codec := .scaled 0 .unsigned32 } (.phys (.finite 1))) = false := by decide +kernel
theorem test_illFormed_encode_value : Instr.wellFormed (.encode flagRegister (.bits [])) = false := by decide +kernel
theorem test_illFormed_encode_tag : Instr.wellFormed (.encode modeRegister (.uint 1)) = false := by decide +kernel
theorem test_illFormed_writeWords_low : Instr.wellFormed (.writeWords 4 65536 0) = false := by decide +kernel
theorem test_illFormed_writeWords_high : Instr.wellFormed (.writeWords 4 0 (-1)) = false := by decide +kernel
theorem test_illFormed_csrWriteName_value :
    Instr.wellFormed (.csrWriteName "U_BUS" (.phys .posInf)) = false := by decide +kernel
theorem test_illFormed_csrWriteAddr_value :
    Instr.wellFormed (.csrWriteAddr 70 (.bits [])) = false := by decide +kernel
theorem test_illFormed_csrWriteNum_value :
    Instr.wellFormed (.csrWriteNum 35 (.bits [true])) = false := by decide +kernel

/-! ### Decode: every opcode of R91, family nibble then member nibble, reads its own ports -/

/-- Ports that all carry different values. -/
def portsInUse : OperandPorts :=
  { x := 10, n := 4, bits := [true], vInt := -7, vPhys := .finite 3, vMode := .stop, vBits := [false], vValue := .uint 9,
    lo := 5, hi := 6, k := 341, kind := .signed32, r := modeRegister, name := "U_BUS", a := 396 }

theorem test_decode_explode : Sys2Proof.decode { op := 0b00000001, ports := portsInUse } = .ok (.explode 10 4) := rfl
theorem test_decode_implode :
    Sys2Proof.decode { op := 0b00000010, ports := portsInUse } = .ok (.implode [true]) := rfl
theorem test_decode_toWordsU :
    Sys2Proof.decode { op := 0b00010000, ports := portsInUse } = .ok (.toWordsU (-7)) := rfl
theorem test_decode_toWordsS :
    Sys2Proof.decode { op := 0b00010001, ports := portsInUse } = .ok (.toWordsS (-7)) := rfl
theorem test_decode_fromWordsU :
    Sys2Proof.decode { op := 0b00010010, ports := portsInUse } = .ok (.fromWordsU 5 6) := rfl
theorem test_decode_fromWordsS :
    Sys2Proof.decode { op := 0b00010011, ports := portsInUse } = .ok (.fromWordsS 5 6) := rfl
theorem test_decode_decRawU : Sys2Proof.decode { op := 0b00100000, ports := portsInUse } = .ok (.decRawU 5 6) := rfl
theorem test_decode_encRawU : Sys2Proof.decode { op := 0b00100001, ports := portsInUse } = .ok (.encRawU (-7)) := rfl
theorem test_decode_decRawS : Sys2Proof.decode { op := 0b00100010, ports := portsInUse } = .ok (.decRawS 5 6) := rfl
theorem test_decode_encRawS : Sys2Proof.decode { op := 0b00100011, ports := portsInUse } = .ok (.encRawS (-7)) := rfl
theorem test_decode_decScaled :
    Sys2Proof.decode { op := 0b00100100, ports := portsInUse } = .ok (.decScaled 341 .signed32 5 6) := rfl
theorem test_decode_encScaled :
    Sys2Proof.decode { op := 0b00100101, ports := portsInUse } = .ok (.encScaled 341 .signed32 (.finite 3)) := rfl
theorem test_decode_decMode : Sys2Proof.decode { op := 0b00100110, ports := portsInUse } = .ok (.decMode 5 6) := rfl
theorem test_decode_encMode : Sys2Proof.decode { op := 0b00100111, ports := portsInUse } = .ok (.encMode .stop) := rfl
theorem test_decode_decBits : Sys2Proof.decode { op := 0b00101000, ports := portsInUse } = .ok (.decBits 5 6) := rfl
theorem test_decode_encBits :
    Sys2Proof.decode { op := 0b00101001, ports := portsInUse } = .ok (.encBits [false]) := rfl
theorem test_decode_decode :
    Sys2Proof.decode { op := 0b00101110, ports := portsInUse } = .ok (.decode modeRegister 5 6) := rfl
theorem test_decode_encode :
    Sys2Proof.decode { op := 0b00101111, ports := portsInUse } = .ok (.encode modeRegister (.uint 9)) := rfl
theorem test_decode_addr :
    Sys2Proof.decode { op := 0b00110000, ports := portsInUse } = .ok (.addr modeRegister) := rfl
theorem test_decode_resolveName :
    Sys2Proof.decode { op := 0b00110001, ports := portsInUse } = .ok (.resolveName "U_BUS") := rfl
theorem test_decode_resolveAddr :
    Sys2Proof.decode { op := 0b00110010, ports := portsInUse } = .ok (.resolveAddr 396) := rfl
theorem test_decode_resolveNum :
    Sys2Proof.decode { op := 0b00110011, ports := portsInUse } = .ok (.resolveNum 4) := rfl
theorem test_decode_readWords :
    Sys2Proof.decode { op := 0b01000000, ports := portsInUse } = .ok (.readWords 396) := rfl
theorem test_decode_writeWords :
    Sys2Proof.decode { op := 0b01000001, ports := portsInUse } = .ok (.writeWords 396 5 6) := rfl
theorem test_decode_csrReadName :
    Sys2Proof.decode { op := 0b01001000, ports := portsInUse } = .ok (.csrReadName "U_BUS") := rfl
theorem test_decode_csrWriteName :
    Sys2Proof.decode { op := 0b01001001, ports := portsInUse } = .ok (.csrWriteName "U_BUS" (.uint 9)) := rfl
theorem test_decode_csrReadAddr :
    Sys2Proof.decode { op := 0b01001010, ports := portsInUse } = .ok (.csrReadAddr 396) := rfl
theorem test_decode_csrWriteAddr :
    Sys2Proof.decode { op := 0b01001011, ports := portsInUse } = .ok (.csrWriteAddr 396 (.uint 9)) := rfl
theorem test_decode_csrReadNum :
    Sys2Proof.decode { op := 0b01001100, ports := portsInUse } = .ok (.csrReadNum 4) := rfl
theorem test_decode_csrWriteNum :
    Sys2Proof.decode { op := 0b01001101, ports := portsInUse } = .ok (.csrWriteNum 4 (.uint 9)) := rfl
/-- 0x03 is reserved (R92). -/
theorem test_decode_reserved :
    Sys2Proof.decode { op := 0b00000011, ports := portsInUse } = .error (.reservedOpcode 3) := rfl
theorem test_decodeTableWord : decodeTableWord 8 0x41 = some (.writeWords 0 0 0) := by decide +kernel
theorem test_decodeTableWord_reserved : decodeTableWord 8 0xFF = none := by decide +kernel

/-! ### The vectors of spec/95, one or two for each operation -/

theorem test_explode :
    outcomeOf (exec (.explode 10 4) start) = some (.ok (.bits [false, true, false, true])) := by decide +kernel
theorem test_explode_refused :
    outcomeOf (exec (.explode 16 4) start) = some (.refused .explodeDomain) := by decide +kernel
theorem test_implode :
    outcomeOf (exec (.implode [false, true, false, true]) start) = some (.ok (.int 10)) := by decide +kernel
theorem test_toWordsU :
    outcomeOf (exec (.toWordsU 0x12345678) start) = some (.ok (.words 0x5678 0x1234)) := by decide +kernel
theorem test_toWordsU_wraps :
    outcomeOf (exec (.toWordsU 4294967301) start) = some (.ok (.words 5 0)) := by decide +kernel
theorem test_toWordsS :
    outcomeOf (exec (.toWordsS (-2771)) start) = some (.ok (.words 0xF52D 0xFFFF)) := by decide +kernel
theorem test_toWordsS_wraps :
    outcomeOf (exec (.toWordsS (-2147483649)) start) = some (.ok (.words 0xFFFF 0x7FFF)) := by decide +kernel
theorem test_fromWordsU :
    outcomeOf (exec (.fromWordsU 0x5678 0x1234) start) = some (.ok (.int 305419896)) := by decide +kernel
theorem test_fromWordsU_refused :
    outcomeOf (exec (.fromWordsU 65536 0) start) = some (.refused .wordRange) := by decide +kernel
theorem test_fromWordsS :
    outcomeOf (exec (.fromWordsS 0xF52D 0xFFFF) start) = some (.ok (.int (-2771))) := by decide +kernel
theorem test_fromWordsS_low_word :
    outcomeOf (exec (.fromWordsS 0xFFFF 0) start) = some (.ok (.int 65535)) := by decide +kernel
theorem test_decRawU :
    outcomeOf (exec (.decRawU 0xFFFF 0xFFFF) start) = some (.ok (.value (.uint 4294967295))) := by decide +kernel
theorem test_encRawU : outcomeOf (exec (.encRawU 4294967296) start) = some (.ok (.words 0 0)) := by decide +kernel
theorem test_decRawS :
    outcomeOf (exec (.decRawS 0x0000 0x8000) start) = some (.ok (.value (.sint (-2147483648)))) := by decide +kernel
theorem test_encRawS :
    outcomeOf (exec (.encRawS 2147483648) start) = some (.ok (.words 0x0000 0x8000)) := by decide +kernel
theorem test_decScaled_signed :
    outcomeOf (exec (.decScaled (8658 / 3125) .signed32 0xF52D 0xFFFF) start) = some (.ok (.value (.phys (.finite (-8659375 / 8658))))) := by decide +kernel
theorem test_decScaled_unsigned :
    outcomeOf (exec (.decScaled (8658 / 3125) .unsigned32 0xF52D 0xFFFF) start) = some (.ok (.value (.phys (.finite (13421764140625 / 8658))))) := by decide +kernel
theorem test_encScaled :
    outcomeOf (exec (.encScaled (8658 / 3125) .signed32 (.finite (-1000))) start) = some (.ok (.words 0xF52D 0xFFFF)) := by decide +kernel
theorem test_encScaled_tie :
    outcomeOf (exec (.encScaled 341 .signed32 (.finite (-1 / 2))) start) = some (.ok (.words 0xFF56 0xFFFF)) := by decide +kernel
theorem test_decMode :
    outcomeOf (exec (.decMode 0x000B 0) start) = some (.ok (.value (.mode .stop))) := by decide +kernel
theorem test_decMode_fails :
    outcomeOf (exec (.decMode 0x0001 0x0001) start) = some (.fail (.invalidMode 65537)) := by decide +kernel
theorem test_encMode : outcomeOf (exec (.encMode .stop) start) = some (.ok (.words 0x000B 0)) := by decide +kernel
theorem test_decBits :
    outcomeOf (exec (.decBits 0x0000 0x8000) start) = some (.ok (.value (.bits (List.replicate 31 false ++ [true])))) := by decide +kernel
theorem test_encBits :
    outcomeOf (exec (.encBits ([true] ++ List.replicate 30 false ++ [true])) start) = some (.ok (.words 0x0001 0x8000)) := by decide +kernel
theorem test_encBits_refused :
    outcomeOf (exec (.encBits (List.replicate 31 true)) start) = some (.refused .bitsLength) := by decide +kernel
theorem test_decode :
    outcomeOf (exec (.decode busRegister 0x03E8 0) start) = some (.ok (.value (.phys (.finite 888)))) := by decide +kernel
theorem test_decode_fails :
    outcomeOf (exec (.decode modeRegister 0x0005 0) start) = some (.fail (.invalidMode 5)) := by decide +kernel
theorem test_encode :
    outcomeOf (exec (.encode modeRegister (.mode .stop)) start) = some (.ok (.words 0x000B 0)) := by decide +kernel
theorem test_encode_refused :
    outcomeOf (exec (.encode rawRegister (.sint (-1))) start) = some (.refused .valueTagMismatch) := by decide +kernel
theorem test_addr : outcomeOf (exec (.addr busRegister) start) = some (.ok (.addrs 396 397)) := by decide +kernel
theorem test_resolveName :
    outcomeOf (exec (.resolveName "U_BUS") start) = some (.ok (.register busRegister)) := by decide +kernel
theorem test_resolveName_fails :
    outcomeOf (exec (.resolveName "u_bus") start) = some (.fail (.unknownRegister (.name "u_bus"))) := by decide +kernel
theorem test_resolveAddr :
    outcomeOf (exec (.resolveAddr 397) start) = some (.ok (.register busRegister)) := by decide +kernel
theorem test_resolveAddr_fails :
    outcomeOf (exec (.resolveAddr 304) start) = some (.fail (.unknownRegister (.addr 304))) := by decide +kernel
theorem test_resolveNum :
    outcomeOf (exec (.resolveNum 198) start) = some (.ok (.register busRegister)) := by decide +kernel
theorem test_resolveNum_fails :
    outcomeOf (exec (.resolveNum (-3)) start) = some (.fail (.unknownRegister (.num (-3)))) := by decide +kernel
theorem test_readWords : outcomeOf (exec (.readWords 4) start) = some (.ok (.words 0x0005 0)) := by decide +kernel
theorem test_readWords_refused :
    outcomeOf (exec (.readWords 397) start) = some (.refused .oddPairAddress) := by decide +kernel
theorem test_csrReadName :
    outcomeOf (exec (.csrReadName "U_BUS") start) = some (.ok (.value (.phys (.finite 888)))) := by decide +kernel
theorem test_csrReadName_fails :
    outcomeOf (exec (.csrReadName "MODE_REG") start) = some (.fail (.invalidMode 5)) := by decide +kernel
theorem test_csrReadAddr :
    outcomeOf (exec (.csrReadAddr 21) start) = some (.ok (.value (.sint (-1)))) := by decide +kernel
theorem test_csrReadNum_fails :
    outcomeOf (exec (.csrReadNum 152) start) = some (.fail (.unknownRegister (.num 152))) := by decide +kernel
theorem test_csrWriteName_refused :
    outcomeOf (exec (.csrWriteName "MODE_REG" (.uint 11)) start) = some (.refused .valueTagMismatch) := by decide +kernel
theorem test_csrReadNum :
    outcomeOf (exec (.csrReadNum 35) start) = some (.ok (.value (.bits (explodeBits 0x00010004 32)))) := by decide +kernel
theorem test_writeWords :
    cellOf (exec (.writeWords 396 0x5678 0x1234) start) 198 = some 0x12345678 := by decide +kernel
theorem test_writeWords_gap_writes_nothing :
    cellOf (exec (.writeWords 304 1 0) start) 155 = some 0 := by decide +kernel
theorem test_csrWriteName :
    cellOf (exec (.csrWriteName "FIX_VEL" (.phys (.finite (-1000)))) start) 5 = some 0xFFFFF52D := by decide +kernel
theorem test_csrWriteAddr :
    cellOf (exec (.csrWriteAddr 21 (.sint (-2147483648))) start) 10 = some 0x80000000 := by decide +kernel
theorem test_csrWriteNum : cellOf (exec (.csrWriteNum 7 (.phys (.finite 1))) start) 7 = some 341 := by decide +kernel
theorem test_csrWriteNum_wraps :
    cellOf (exec (.csrWriteNum 231 (.uint 4294967296)) start) 231 = some 0 := by decide +kernel
theorem test_word_view :
    (start.word 396, start.word 70, start.word 71, start.word 304) = (some 0x03E8, some 0x0004, some 0x0001, none) := by decide +kernel

/-! ### Rounding ties by `ROUND_TIE` (spec/95: -1/2 and -3/2 by 341) and binary64 values known from IEEE 754 -/

theorem test_tie_halfEven :
    (roundTie .halfEven (-341 / 2), roundTie .halfEven (-1023 / 2)) = (-170, -512) := by decide +kernel
theorem test_tie_halfAway :
    (roundTie .halfAway (-341 / 2), roundTie .halfAway (-1023 / 2)) = (-171, -512) := by decide +kernel
theorem test_tie_halfUp :
    (roundTie .halfUp (-341 / 2), roundTie .halfUp (-1023 / 2)) = (-170, -511) := by decide +kernel
theorem test_double_tenth : toDouble (1 / 10) = .finite (3602879701896397 / 36028797018963968) := by decide +kernel
theorem test_double_overflow : toDouble (pow2 1024) = .posInf := by decide +kernel
theorem test_double_underflow : toDouble (pow2 (-1075)) = .finite 0 := by decide +kernel

/-! ### The runner and the environment (spec/95, scripts P1, P4, P5) -/

/-- A transaction of caller 0. -/
def call (i : Instr) : Event := .call 0 (Sys2Proof.encode i)

theorem test_step_keeps_outcome :
    (match step (startPending [call (.readWords 4)]) with | .next t => t.log | _ => []) =
    [{ caller := 0, outcome := .ok (.words 0x0005 0) }] := by decide +kernel
theorem test_abort_ends_script :
    (match step (startPending [call (.readWords 304), call (.readWords 4), .environment 1 7]) with
      | .next t => (t.pending, t.reports.map Report.index) | _ => ([], [])) = ([.environment 1 7], [0]) := by decide +kernel
theorem test_environment_step : cellOf (step (startPending [.environment 198 7])) 198 = some 7 := by decide +kernel
theorem test_reserved_opcode :
    outcomeOf (step (startPending [.call 0 { op := 0x03, ports := .idle }])) = some (.refused .reservedOpcode) := by decide +kernel
theorem test_withFetchWord :
    outcomeOf (step (start.withFetchWord 8 0x33)) = some (.fail (.unknownRegister (.num 0))) := by decide +kernel

/-! ### Script syntax (R96) -/

theorem test_script_scaled :
    parseLine tableFix "DEC.SCALED 125/111, U, 0x03E8, 0x0000 => phys(888.0)  # comment".toList = some (some { op := .decScaled (125 / 111) .unsigned32 0x3E8 0, expected := some (.ok (.value (.phys (.finite 888)))) }) := by decide +kernel
theorem test_script_bits :
    parseLine tableFix "ENC.BITS bits(0x80000001)".toList = some (some { op := .encBits ([true] ++ List.replicate 30 false ++ [true]), expected := none }) := by decide +kernel
theorem test_script_register :
    parseLine tableFix "ENCODE reg(198), u(-7) => refused(ValueTagMismatch)".toList = some (some { op := .encode busRegister (.uint (-7)), expected := some (.refused .valueTagMismatch) }) := by decide +kernel
theorem test_script_name :
    parseLine tableFix "CSRREAD.NAME \"MODE_REG\" => fail(InvalidMode)".toList = some (some { op := .csrReadName "MODE_REG", expected := some .invalidMode }) := by decide +kernel
theorem test_script_comment : parseLine tableFix "# nothing here".toList = some none := by decide +kernel
theorem test_script_unknown : parseLine tableFix "JUMP 4".toList = none := by decide +kernel
theorem test_script_exponent :
    parseLine tableFix "ENC.SCALED 3.598133e-3, U, phys(1e5)".toList = some (some { op := .encScaled (3598133 / 1000000000) .unsigned32 (.finite 100000), expected := none }) := by decide +kernel
theorem test_script_implode :
    parseLine tableFix "IMPLODE bits(0x80000001) => 2147483649".toList = some (some { op := .implode ([true] ++ List.replicate 30 false ++ [true]), expected := some (.ok (.int 2147483649)) }) := by decide +kernel
theorem test_expected_bits :
    Expected.accepts (.ok (.value (.bits [true]))) (.ok (.bits [true])) = true := by decide +kernel
theorem test_script_lines :
    (parseScript tableFix "EXPLODE 10, 4\n# note\nRESOLVE.NUM 198").map List.length = some 2 := by decide +kernel
theorem test_expected_accepts :
    Expected.accepts .unknownRegister (.fail (.unknownRegister (.addr 304))) = true := by decide +kernel

/-! ### Witnesses: for every statement with hypotheses, a case that meets them; several clauses, one for each -/

theorem witness_ExplodeListsBitsLsbFirst :
    ((0 : Int) ≤ 4 ∧ (0 : Int) ≤ 15 ∧ (15 : Int) < 2 ^ (4 : Int).toNat) ∧
    ((0 : Int) ≤ 0 ∧ (0 : Int) ≤ 0 ∧ (0 : Int) < 2 ^ (0 : Int).toNat) ∧
    ¬((0 : Int) ≤ 4 ∧ (0 : Int) ≤ 16 ∧ (16 : Int) < 2 ^ (4 : Int).toNat) ∧
    ¬((0 : Int) ≤ -1 ∧ (0 : Int) ≤ 0 ∧ (0 : Int) < 2 ^ (-1 : Int).toNat) := by decide
theorem witness_ImplodeAndExplodeAreInverse :
    (0 : Int) ≤ 32 ∧ (0 : Int) ≤ 4294967295 ∧ (4294967295 : Int) < 2 ^ (32 : Int).toNat := by decide
theorem witness_FlagPositionsAreIndependent :
    ((31 : Nat) < 32 ∧ ((0x8000 : Word) ++ (0x0000 : Word)).getLsbD 31 = ((0x8001 : Word) ++ (0x0001 : Word)).getLsbD 31) ∧
    ((List.replicate 32 false).length = 32 ∧ ([true] ++ List.replicate 31 false).length = 32 ∧
      (List.replicate 32 false)[31]? = ([true] ++ List.replicate 31 false)[31]?) := by decide
theorem witness_FromWordsJoinsLowWordFirst :
    ((inU16 0 ∧ inU16 65535) ∧ ¬(inU16 65536 ∧ inU16 0) ∧ ¬(inU16 0 ∧ inU16 (-1))) := by decide
theorem witness_RawUnsignedCodecPassesTheInteger :
    ((inU16 0 ∧ inU16 65535) ∧ ¬(inU16 65536 ∧ inU16 0) ∧ ¬(inU16 0 ∧ inU16 (-1))) := by decide
theorem witness_RawSignedCodecReadsTwosComplement :
    ((inU16 0 ∧ inU16 65535) ∧ ¬(inU16 65536 ∧ inU16 0) ∧ ¬(inU16 0 ∧ inU16 (-1))) := by decide
theorem witness_WordCodecIsATwoSidedInverse :
    inKind .unsigned32 0 ∧ inKind .unsigned32 4294967295 ∧ inKind .signed32 (-2147483648) ∧ inKind .signed32 2147483647 := by simp [inKind]
theorem witness_ScaledDecodeDividesByTheFactor :
    (0 : Rat) < 341 ∧ start.cfg.numerics = .exact ∧
    ((inU16 0 ∧ inU16 65535) ∧ ¬(inU16 65536 ∧ inU16 0) ∧ ¬(inU16 0 ∧ inU16 (-1))) := by decide +kernel
theorem witness_ScaledEncodeRoundsToNearest :
    (0 : Rat) < 341 ∧ start.cfg.numerics = .exact ∧ |(1 / 2 : Rat) * 341 - (170 : Int)| = 1 / 2 := by decide +kernel
theorem witness_ScaledRoundTripWithinTolerance :
    (0 : Rat) < 1 ∧ start.cfg.numerics = .exact ∧ roundTie start.cfg.roundTie (2147483647 * 1) = 2147483647 ∧
    inKind .signed32 2147483647 ∧ roundTie start.cfg.roundTie (4294967295 * 1) = 4294967295 ∧ inKind .unsigned32 4294967295 := by
  refine ⟨by decide +kernel, by decide, by decide +kernel, by simp [inKind], by decide +kernel, by simp [inKind]⟩
theorem witness_ScaledRoundTripWithinTolerance_binary64 :
    start64.cfg.numerics = .binary64 ∧ toDouble 341 = .finite 341 ∧ (341 : Rat) ≠ 0 ∧
    toDouble (12594868 + 155 / 341) = .finite (6761818513711849 / 536870912) ∧
    toDouble (6761818513711849 / 536870912 * 341) = .finite 4294850143 ∧
    roundTie start64.cfg.roundTie 4294850143 = 4294850143 ∧ inKind .unsigned32 4294850143 ∧
    toDouble (4294850143 / 341) = .finite (6761818513711849 / 536870912) := by
  refine ⟨by decide, by decide +kernel, by decide +kernel, by decide +kernel, by decide +kernel, by decide +kernel,
    by simp [inKind], by decide +kernel⟩
theorem witness_BusVoltageScenarioHolds :
    tableKnownRows start.cfg.table = true ∧ start.cfg.numerics = .exact ∧ inU16 0 ∧ inU16 65535 := by decide +kernel
theorem witness_NonPositiveFactorStillCompletes :
    ((0 : Rat) ≤ 0 ∧ (-341 : Rat) ≤ 0) ∧ inU16 0 ∧ inU16 65535 ∧ ¬(inU16 0 ∧ inU16 65536) ∧
    start.cfg.numerics ≠ .binary64 ∧ start64.cfg.numerics = .binary64 ∧ toDouble 3 = .finite 3 := by decide +kernel
theorem witness_ModeDecodeAcceptsFourValues :
    (inU16 0 ∧ inU16 65535) ∧ pairValue 0 0 = 0 ∧ pairValue 1 0 = 1 ∧ pairValue 2 0 = 2 ∧ pairValue 11 0 = 11 ∧
    (pairValue 65535 65535 ≠ 0 ∧ pairValue 65535 65535 ≠ 1 ∧ pairValue 65535 65535 ≠ 2 ∧ pairValue 65535 65535 ≠ 11) ∧
    (pairValue 1 1 ≠ 0 ∧ pairValue 1 1 ≠ 1 ∧ pairValue 1 1 ≠ 2 ∧ pairValue 1 1 ≠ 11) ∧ ¬(inU16 65536 ∧ inU16 0) := by decide
theorem witness_FlagSetCodecMapsPositionsToBits :
    ((inU16 0 ∧ inU16 65535) ∧ ¬(inU16 65536 ∧ inU16 0) ∧ ¬(inU16 0 ∧ inU16 (-1))) ∧ (List.replicate 32 true).length = 32 ∧ (List.replicate 31 true).length ≠ 32 := by decide
theorem witness_CodecRoundTrips :
    representable rawRegister.codec (.uint 4294967295) ∧ representable signedRegister.codec (.sint (-2147483648)) ∧
    representable modeRegister.codec (.mode .stop) ∧ representable flagRegister.codec (.bits (List.replicate 32 true)) ∧
    (busRegister.codec.wellFormed = true ∧ start.cfg.numerics = .exact ∧ busRegister.codec ≠ .mode) ∧
    ((0 : Word) = 0 ∧ ((11 : Word) = 0 ∨ (11 : Word) = 1 ∨ (11 : Word) = 2 ∨ (11 : Word) = 11)) := by
  refine ⟨by simp [representable, rawRegister, inKind], by simp [representable, signedRegister, inKind], trivial,
    by simp [representable, flagRegister], by decide +kernel, by decide⟩
theorem witness_DoubleRoundingIsNearestTiesToEven :
    toDouble (1 / 3) = .finite (6004799503160661 / 18014398509481984) ∧ toDouble 0 = .finite 0 ∧
    toDouble (2 ^ 1024 - 2 ^ 970) = .posInf ∧ toDouble (-(2 ^ 1024 - 2 ^ 970)) = .negInf ∧
    toDouble (pow2 (-1075)) = .finite 0 := by decide +kernel
theorem witness_ScaledCodecUnderBinary64 :
    Phys.isFinite .nan = false ∧ ((0 : Rat) < 341 ∧ start64.cfg.numerics = .binary64) ∧
    ((inU16 0x03FF ∧ inU16 0) ∧ ¬(inU16 65536 ∧ inU16 0)) ∧ (toDouble 341 = .finite 341 ∧ (341 : Rat) ≠ 0) ∧
    (0 < pow2 (-1075) ∧ toDouble (pow2 (-1075)) = .finite 0) ∧ (0 < pow2 1024 ∧ toDouble (pow2 1024) = .posInf) ∧
    (toDouble (1 / 2) = .finite (1 / 2) ∧ toDouble (1 / 2 * 341) = .finite (341 / 2)) := by decide +kernel
theorem witness_ResolveByNameIsExactMatch :
    tableWf start.cfg.table = true ∧ (busRegister ∈ start.cfg.table ∧ busRegister.name = "U_BUS") ∧
    ∀ r ∈ start.cfg.table, r.name ≠ "u_bus" := by decide +kernel
theorem witness_ResolveByAddressFindsTheSpan :
    tableWf start.cfg.table = true ∧ busRegister ∈ start.cfg.table ∧
    (2 * (busRegister.num : Int) ≤ 396 ∧ 396 ≤ 2 * (busRegister.num : Int) + 1) ∧
    (2 * (busRegister.num : Int) ≤ 397 ∧ 397 ≤ 2 * (busRegister.num : Int) + 1) ∧
    (∀ r ∈ start.cfg.table, ¬(2 * (r.num : Int) ≤ 300 ∧ 300 ≤ 2 * (r.num : Int) + 1)) ∧
    ∀ r ∈ start.cfg.table, ¬(2 * (r.num : Int) ≤ -1 ∧ -1 ≤ 2 * (r.num : Int) + 1) := by decide +kernel
theorem witness_ResolveByNumberFindsTheNumber :
    tableWf start.cfg.table = true ∧ (busRegister ∈ start.cfg.table ∧ (busRegister.num : Int) = 198) ∧
    ∀ r ∈ start.cfg.table, (r.num : Int) ≠ 150 := by decide +kernel
theorem witness_BinarySearchFindsTheSameRegister :
    tableWf tableFix = true ∧ searchRegister tableFix 304 = none ∧ searchRegister tableFix 397 = some busRegister := by decide +kernel
theorem witness_EveryAccessToAGapFails :
    (∀ r ∈ start.cfg.table, (r.num : Int) ≠ 150) ∧ lookupKey (.readWords 300) = some (.addr (2 * 150)) ∧
    lookupKey (.csrReadAddr 301) = some (.addr (2 * 150 + 1)) ∧ lookupKey (.resolveNum 150) = some (.num 150) ∧ start.Inv := by decide +kernel
theorem witness_ReservedNumbersFailInEveryKnownTable :
    tableKnownRows start.cfg.table = true ∧ lookupKey (.readWords 1) = some (.addr 1) ∧ lookupKey (.readWords 300) = some (.addr 300) ∧
    lookupKey (.resolveAddr 309) = some (.addr 309) ∧ lookupKey (.csrReadAddr 464) = some (.addr 464) ∧
    lookupKey (.resolveNum 0) = some (.num 0) ∧ lookupKey (.csrReadNum 154) = some (.num 154) ∧
    lookupKey (.resolveNum 232) = some (.num 232) := by decide +kernel
theorem witness_UnknownRegisterExactlyWhenTheLookupFails :
    lookupKey (.readWords 300) = some (.addr 300) ∧ resolve start.cfg.table (.addr 300) = .fail (.unknownRegister (.addr 300)) ∧
    outcomeOf (exec (.readWords 300) start) = some (.fail (.unknownRegister (.addr 300))) := by decide +kernel
theorem witness_ReadWordsReturnsTheCellsPair :
    start.Inv ∧ busRegister ∈ start.cfg.table ∧ start.cell busRegister.num = some 1000 ∧ start.cfg.oddPair = .refuse ∧
    (startAlias.Inv ∧ busRegister ∈ startAlias.cfg.table ∧ startAlias.cfg.oddPair = .alias_) ∧
    ∀ r ∈ start.cfg.table, ¬(2 * (r.num : Int) ≤ 309 ∧ 309 ≤ 2 * (r.num : Int) + 1) := by decide +kernel
theorem witness_WriteWordsReplacesOneCell :
    start.Inv ∧ busRegister ∈ start.cfg.table ∧ inU16 0 ∧ inU16 65535 ∧ (396 : Int) = 2 * busRegister.num ∧
    (startAlias.Inv ∧ busRegister ∈ startAlias.cfg.table ∧ (397 : Int) = 2 * busRegister.num + 1 ∧
      startAlias.cfg.oddPair = .alias_) := by decide +kernel
theorem witness_WriteWordsTurnedAwayWritesNothing :
    start.Inv ∧ busRegister ∈ start.cfg.table ∧ (∀ r ∈ start.cfg.table, ¬(2 * (r.num : Int) ≤ 464 ∧ 464 ≤ 2 * (r.num : Int) + 1)) ∧
    ((397 : Int) = 2 * busRegister.num + 1 ∧ start.cfg.oddPair = .refuse ∧ inU16 0 ∧ inU16 65535) ∧
    ((396 : Int) = 2 * busRegister.num ∧ ¬(inU16 65536 ∧ inU16 0)) ∧ ¬(inU16 0 ∧ inU16 (-1)) := by decide +kernel
theorem witness_TypedReadDecodesTheCell :
    start.Inv ∧ busRegister ∈ start.cfg.table ∧ start.cell busRegister.num = some 1000 ∧ (1000 : Word).toNat = (1000 : Raw).toNat % 65536 ∧
    (0 : Word).toNat = (1000 : Raw).toNat / 65536 ∧ typedReadKey (.csrReadNum 152) = some (.num 152) ∧
    resolve start.cfg.table (.num 152) = .fail (.unknownRegister (.num 152)) := by decide +kernel
theorem witness_TypedWriteStoresTheEncoding :
    start.Inv ∧ busRegister ∈ start.cfg.table ∧ start.cfg.numerics ≠ .binary64 ∧ Value.fits (.phys (.finite 888)) busRegister.codec = true ∧
    Value.wellFormed (.phys (.finite 888)) = true ∧ (flagRegister ∈ start.cfg.table ∧
      Value.fits (.bits (List.replicate 32 true)) flagRegister.codec = true ∧
      Value.wellFormed (.bits (List.replicate 32 true)) = true) ∧
    (start64.Inv ∧ busRegister ∈ start64.cfg.table ∧ toDouble 888 = .finite 888) := by decide +kernel
theorem witness_TypedWriteTurnedAwayWritesNothing :
    typedWrite (.csrWriteName "NO_SUCH" (.uint 1)) = some (.name "NO_SUCH", .uint 1) ∧
    resolve start.cfg.table (.name "NO_SUCH") = .fail (.unknownRegister (.name "NO_SUCH")) ∧
    (resolve start.cfg.table (.num 2) = .ok modeRegister ∧ Value.fits (.uint 11) modeRegister.codec = false) ∧
    (resolve start.cfg.table (.num 35) = .ok flagRegister ∧
      exec (.encode flagRegister (.bits [])) start = .next { start with result := some (.refused .bitsLength) }) := by
  refine ⟨by decide +kernel, by decide +kernel, by decide +kernel, by decide +kernel, rfl⟩
theorem witness_TypedAccessNeverMeetsOddPairPolicy :
    start.Inv ∧ typedReadKey (.csrReadAddr 397) ≠ none ∧ typedWrite (.csrWriteAddr 397 (.phys (.finite 1))) ≠ none ∧
    (∃ t, exec (.csrReadAddr 397) start = .next t) ∧ ∃ t, exec (.csrWriteAddr 397 (.phys (.finite 1))) start = .next t := by
  refine ⟨by decide +kernel, by decide +kernel, by decide +kernel, ⟨_, rfl⟩, ⟨_, rfl⟩⟩
theorem witness_WriteThenReadReturnsWhatWasWritten :
    start.Inv ∧ busRegister ∈ start.cfg.table ∧ signedRegister ∈ start.cfg.table ∧ representable signedRegister.codec (.sint (-2147483648)) ∧
    (busRegister.codec = .scaled (125 / 111) .unsigned32 ∧ (0 : Rat) < 125 / 111 ∧ start.cfg.numerics = .exact ∧
      roundTie start.cfg.roundTie (888 * (125 / 111)) = 1000 ∧ inKind .unsigned32 1000) := by
  refine ⟨by decide +kernel, by decide +kernel, by decide +kernel, by simp [representable, signedRegister, inKind], by decide +kernel,
    by decide +kernel, by decide +kernel, by decide +kernel, by simp [inKind]⟩
theorem witness_WordViewSpellsTheCell :
    start.Inv ∧ busRegister ∈ start.cfg.table ∧ ∀ r ∈ start.cfg.table, (304 : Int) ≠ 2 * r.num ∧ (304 : Int) ≠ 2 * r.num + 1 := by decide +kernel
theorem witness_ReadsAndWritesAreIdempotent :
    (∃ t, exec (.readWords 396) start = .next t) ∧ ∃ t, exec (.writeWords 396 1 2) start = .next t := ⟨⟨_, rfl⟩, ⟨_, rfl⟩⟩
theorem witness_InvalidModeExactlyFromModeDecodes :
    pairValue 1 1 = (65537 : Raw).toNat ∧ (65537 : Raw).toNat ≠ 0 ∧ modeRegister.codec = .mode ∧ start.Inv ∧
    resolve start.cfg.table (.num 2) = .ok modeRegister ∧ start.cell modeRegister.num = some 5 ∧
    (∃ t, exec (.decMode 5 0) start = .next t ∧ t.result = some (.fail (.invalidMode 5))) ∧
    ∃ t, exec (.csrReadName "MODE_REG") start = .next t ∧ t.result = some (.fail (.invalidMode 5)) := by
  exact ⟨by decide, by decide, rfl, by decide +kernel, by decide +kernel, by decide +kernel, ⟨_, rfl, by decide +kernel⟩,
    ⟨_, rfl, by decide +kernel⟩⟩
theorem witness_FailedTransactionChangesNothingElse :
    ∃ t, exec (.writeWords 397 1 0) start = .next t ∧ ∀ v, t.result ≠ some (.ok v) := by
  refine ⟨{ start with result := some (.refused .oddPairAddress) }, rfl, ?_⟩
  simp
theorem witness_WellFormedPureOperationsAreNotRefused :
    Instr.wellFormed (.decScaled 341 .signed32 65535 65535) = true ∧ touchesNoStorage (.decScaled 341 .signed32 65535 65535) = true ∧
    start.cfg.numerics = .exact := by decide +kernel
theorem witness_PureOperationsNeitherReadNorWriteStorage :
    touchesNoStorage (.resolveNum 198) = true ∧ touchesNoStorage (.readWords 396) = false ∧
    start.cfg = (start.setCell 198 7).cfg := by decide +kernel
theorem witness_StepRunsTheDecodedTransaction :
    (startPending [call (.readWords 396)]).pending = [.call 0 (Sys2Proof.encode (.readWords 396))] ∧
    Sys2Proof.decode (Sys2Proof.encode (.readWords 396)) = .ok (.readWords 396) := ⟨rfl, rfl⟩
theorem witness_ReservedOpcodesAreRefused :
    (startPending [.call 0 { op := 0x03, ports := .idle }]).pending = [.call 0 { op := 0x03, ports := .idle }] ∧
    ∀ i : Instr, i.opcode ≠ 0x03 := by
  refine ⟨rfl, fun i => ?_⟩
  cases i <;> simp [Instr.opcode]
theorem witness_DecodeInvertsEncode :
    Sys2Proof.decode { op := 0x41, ports := portsInUse } = .ok (.writeWords 396 5 6) := rfl
theorem witness_StepKeepsStorageForm :
    start.Inv ∧ (startPending [call (.writeWords 396 1 2)]).Inv ∧ ∃ t, step (startPending [call (.writeWords 396 1 2)]) = .next t := by
  refine ⟨by decide +kernel, by decide +kernel, ⟨_, rfl⟩⟩
theorem witness_EveryStepCompletes : start.Inv ∧ (startPending [call (.csrReadNum 198)]).Inv := by decide +kernel
theorem witness_ResetLeavesEveryCellAtItsResetValue :
    tableWf fixtureConfig.table = true ∧ busRegister ∈ fixtureConfig.table ∧ ∀ r ∈ fixtureConfig.table, r.num ≠ 150 := by decide +kernel
theorem witness_NoStepChangesTheConfiguration :
    ∃ t, step (startPending [call (.writeWords 396 1 2)]) = .next t := ⟨_, rfl⟩
theorem witness_CellKeepsItsValueUntilWritten :
    (∀ e ∈ (startPending [.environment 1 7]).pending, ¬ mayWrite start.cfg.table 198 e) ∧
    ∃ t, Host.Core.run Sys2Proof.core 1 (startPending [.environment 1 7]) = .next t := by
  refine ⟨?_, ⟨_, rfl⟩⟩
  intro e he
  simp only [startPending, List.mem_singleton] at he
  subst he
  simp [mayWrite]
theorem witness_EnvironmentStepTouchesOnlyVolatileCells :
    (startPending [.environment 198 7]).pending = [.environment 198 7] ∧ 198 ∈ start.cfg.volatiles ∧ 150 ∉ start.cfg.volatiles := by decide +kernel
theorem witness_RunnerStopsAScriptOnlyUnderAbort :
    (∃ u, exec (.readWords 304) start = .next u ∧ u.result = some (.fail (.unknownRegister (.addr 304)))) ∧
    start.cfg.onError = .abort ∧ (∃ u, exec (.readWords 396) start = .next u ∧ u.result = some (.ok (.words 0x03E8 0))) ∧
    (startWith { fixtureConfig with onError := .continue_ }).cfg.onError = .continue_ ∧
    Sys2Proof.decode (Sys2Proof.encode (.readWords 304)) = .ok (.readWords 304) ∧
    (∀ i : Instr, i.opcode ≠ 0x03) ∧ (startPending [call (.readWords 304)]).pending = [call (.readWords 304)] := by
  exact ⟨⟨_, rfl, by decide +kernel⟩, by decide, ⟨_, rfl, by decide +kernel⟩, by decide, rfl,
    fun i => by cases i <;> simp [Instr.opcode], rfl⟩
theorem witness_BlockWaitsWithNothingPending : start.pending = [] := rfl

end Sys2Proof.Tests
end

section
/-! PROOFS. What one operation and one step can do to the state, and the statements about reset, the configuration and the
storage that follow from it. -/

namespace Sys2Proof.Machine

/-! ### What an operation can do

Every operation ends in one of three ways: in `reply`, in `replyRead` or in `replyWrite`. -/

/-- An operation of families 0x0 to 0x3 delivers an outcome and does nothing else (R162, R220). -/
theorem exec_of_touchesNoStorage {i : Instr} (h : touchesNoStorage i = true) (s : State) :
    ∃ ans, exec i s = .next (s.deliver ans) := by
  cases i with
  | explode x n =>
    by_cases hd : 0 ≤ n ∧ 0 ≤ x ∧ x < 2 ^ n.toNat
    · exact ⟨_, if_pos hd⟩
    · exact ⟨_, if_neg hd⟩
  | readWords | writeWords | csrReadName | csrWriteName | csrReadAddr | csrWriteAddr | csrReadNum | csrWriteNum =>
    simp [touchesNoStorage, Instr.opcode] at h
  | _ => exact ⟨_, rfl⟩

/-- An operation that touches storage and is no write ends as a read (R185, R187). -/
theorem exec_of_read {i : Instr} (hs : touchesNoStorage i = false) (hw : isWrite i = false) (s : State) :
    ∃ x, exec i s = s.replyRead x := by
  cases i with
  | readWords | csrReadName | csrReadAddr | csrReadNum => exact ⟨_, rfl⟩
  | writeWords | csrWriteName | csrWriteAddr | csrWriteNum => simp [isWrite] at hw
  | _ => simp [touchesNoStorage, Instr.opcode] at hs

/-- The lookup at the low word's address of a Register finds one of the same number, in any table. -/
theorem num_of_resolve_lowAddr {T : List Register} {r r' : Register} (h : resolve T (.addr (lowAddr r)) = .ok r') :
    r'.num = r.num := by
  cases hf : registerAt T (lowAddr r) with
  | none => simp [resolve, hf] at h
  | some q =>
    obtain rfl : q = r' := by simpa [resolve, hf] using h
    obtain ⟨-, hlo, hhi⟩ := registerAt_some hf
    simp only [lowAddr] at hlo hhi
    omega

/-- Where a typed write succeeds, in any state, it has replaced the cell of the Register its operand names (R188). -/
theorem csrWrite_ok_resolve {s s' : State} {key : RegKey} {v : Value} (h : csrWrite s key v = .ok (.ok s')) :
    ∃ r u, resolve s.cfg.table key = .ok r ∧ s' = s.setCell r.num u := by
  rcases resolve_cases s.cfg.table key with ⟨r, -, he⟩ | he
  · rcases hc : encodeBy s.cfg r.codec v with w | f | q
    · simp only [csrWrite, he, hc, Answer.thenAccess_ok] at h
      obtain ⟨r', -, w', ha, -, -, hs⟩ := writePort_ok h
      exact ⟨r, rawOf w', he, num_of_resolve_lowAddr ha ▸ hs⟩
    · simp [csrWrite, he, hc] at h
    · simp [csrWrite, he, hc] at h
  · simp [csrWrite, he] at h

/-- A write ends as one, and where it succeeds it has replaced the cell of the Register its operand names (R186, R188). -/
theorem exec_of_isWrite {i : Instr} (hw : isWrite i = true) (s : State) :
    ∃ x, exec i s = s.replyWrite x ∧
      ∀ s', x = .ok (.ok s') → ∃ n u, writesTo s.cfg.table n i ∧ s' = s.setCell n u := by
  have htyped : ∀ {key v}, lookupKey i = some key → ∀ s', csrWrite s key v = .ok (.ok s') →
      ∃ n u, writesTo s.cfg.table n i ∧ s' = s.setCell n u := by
    intro key v hkey s' hs
    obtain ⟨r, u, he, hs'⟩ := csrWrite_ok_resolve hs
    exact ⟨r.num, u, ⟨hw, key, r, hkey, he, rfl⟩, hs'⟩
  cases i with
  | writeWords a lo hi =>
    refine ⟨_, rfl, fun s' hs => ?_⟩
    obtain ⟨r, -, w, he, -, -, hs'⟩ := writePort_ok hs
    exact ⟨r.num, rawOf w, ⟨hw, .addr a, r, rfl, he, rfl⟩, hs'⟩
  | csrWriteName | csrWriteAddr | csrWriteNum => exact ⟨_, rfl, htyped rfl⟩
  | _ => simp [isWrite] at hw

/-- What an operation that completes can do: deliver an outcome, or replace the one cell it names and deliver `done`. -/
theorem exec_cases {i : Instr} {s t : State} (h : exec i s = .next t) :
    (∃ ans, t = s.deliver ans) ∨
      ∃ n u, writesTo s.cfg.table n i ∧ t = (s.setCell n u).deliver (.ok .done) := by
  cases hs : touchesNoStorage i with
  | true =>
    obtain ⟨ans, he⟩ := exec_of_touchesNoStorage hs s
    rw [he] at h
    exact .inl ⟨ans, (Host.Outcome.next.inj h).symm⟩
  | false =>
    cases hw : isWrite i with
    | false =>
      obtain ⟨x, he⟩ := exec_of_read hs hw s
      obtain ⟨ans, -, ht⟩ := State.replyRead_next (he ▸ h)
      exact .inl ⟨ans, ht⟩
    | true =>
      obtain ⟨x, he, hx⟩ := exec_of_isWrite hw s
      rcases State.replyWrite_next (he ▸ h) with ⟨s', hs', ht⟩ | ⟨f, -, ht⟩ | ⟨q, -, ht⟩
      · obtain ⟨n, u, hn, rfl⟩ := hx s' hs'
        exact .inr ⟨n, u, hn, ht⟩
      · exact .inl ⟨_, ht⟩
      · exact .inl ⟨_, ht⟩

/-! ### What a step can do -/

/-- A pending environment step is taken next (R34, R62). -/
theorem step_environment {s : State} {n : Nat} {v : Raw} {rest : List Event}
    (h : s.pending = .environment n v :: rest) :
    step s = .next (State.environmentStep { s with pending := rest } n v) := by
  simp only [step, h]

/-- What a step can do: wait, take an environment step, deliver and record an outcome, or replace the cell that a write
names and record `done` (R62, R63, R97, R241). -/
theorem step_cases {s t : State} (h : step s = .next t) :
    (s.pending = [] ∧ t = s) ∨
    (∃ n v rest, s.pending = .environment n v :: rest ∧ t = State.environmentStep { s with pending := rest } n v) ∨
    (∃ c tr rest ans, s.pending = .call c tr :: rest ∧
      t = (State.deliver { s with pending := rest } ans).recordResult c) ∨
    (∃ c tr rest i n u, s.pending = .call c tr :: rest ∧ decode tr = .ok i ∧ writesTo s.cfg.table n i ∧
      t = ((State.setCell { s with pending := rest } n u).deliver (.ok .done)).recordResult c) := by
  rcases hp : s.pending with _ | ⟨⟨c, tr⟩ | ⟨n, v⟩, rest⟩
  case nil =>
    simp only [step, hp, Host.Outcome.next.injEq] at h
    exact .inl ⟨rfl, h.symm⟩
  case cons.call =>
    right; right
    cases hd : decode tr with
    | error e =>
      simp only [step, hp, hd, Host.Outcome.next.injEq] at h
      exact .inl ⟨c, tr, rest, .refused .reservedOpcode, rfl, h.symm⟩
    | ok i =>
      cases he : exec i { s with pending := rest } with
      | fault e => simp [step, hp, hd, he] at h
      | refused q => simp [step, hp, hd, he] at h
      | next u =>
        simp only [step, hp, hd, he, Host.Outcome.next.injEq] at h
        rcases exec_cases he with ⟨ans, rfl⟩ | ⟨n, v, hn, rfl⟩
        · exact .inl ⟨c, tr, rest, ans, rfl, h.symm⟩
        · exact .inr ⟨c, tr, rest, i, n, v, rfl, hd, hn, h.symm⟩
  case cons.environment =>
    rw [step_environment hp] at h
    exact .inr (.inl ⟨n, v, rest, rfl, (Host.Outcome.next.inj h).symm⟩)

/-- Recording an outcome adds nothing to what is pending (R97). -/
theorem State.recordResult_pending_subset (s : State) (c : Nat) : (s.recordResult c).pending ⊆ s.pending := by
  unfold State.recordResult State.record
  split
  · split
    · simp
    · simp
  · simp

/-- A step changes no configuration (R21). -/
theorem step_cfg {s t : State} (h : step s = .next t) : t.cfg = s.cfg := by
  rcases step_cases h with ⟨-, rfl⟩ | ⟨n, v, rest, -, rfl⟩ | ⟨c, tr, rest, ans, -, rfl⟩ |
    ⟨c, tr, rest, i, n, u, -, -, -, rfl⟩ <;> simp

/-- A step adds nothing to what is pending (R62). -/
theorem step_pending_subset {s t : State} (h : step s = .next t) : t.pending ⊆ s.pending := by
  rcases step_cases h with ⟨-, rfl⟩ | ⟨n, v, rest, hp, rfl⟩ | ⟨c, tr, rest, ans, hp, rfl⟩ |
    ⟨c, tr, rest, i, n, u, hp, -, -, rfl⟩
  · exact List.Subset.refl _
  · simp [hp]
  · exact List.Subset.trans (State.recordResult_pending_subset _ c) (by simp [hp])
  · exact List.Subset.trans (State.recordResult_pending_subset _ c) (by simp [hp])

/-- The environment step leaves every other cell alone (R34). -/
theorem State.cell_environmentStep_other (s : State) (n m : Nat) (v : Raw) (h : m ≠ n) :
    (s.environmentStep n v).cell m = s.cell m := by
  unfold State.environmentStep
  split
  · exact s.cell_setCell_other n m v h
  · rfl

/-- A step changes a cell only where the event it takes may write that cell (R31, R34). -/
theorem step_cell_of_not_mayWrite {s t : State} {n : Nat} (hno : ∀ e ∈ s.pending, ¬ mayWrite s.cfg.table n e)
    (h : step s = .next t) : t.cell n = s.cell n := by
  rcases step_cases h with ⟨-, rfl⟩ | ⟨m, v, rest, hp, rfl⟩ | ⟨c, tr, rest, ans, -, rfl⟩ |
    ⟨c, tr, rest, i, m, u, hp, hd, hw, rfl⟩
  · rfl
  · have hm : m ≠ n := hno (.environment m v) (by simp [hp])
    exact State.cell_environmentStep_other _ m n v hm.symm
  · simp [State.cell]
  · have hm : n ≠ m := by
      rintro rfl
      exact hno (.call c tr) (by simp [hp]) ⟨i, hd, hw⟩
    rw [State.cell_recordResult, State.cell_deliver, State.cell_setCell_other _ m n u hm]
    rfl

/-! ### What any number of steps keeps -/

/-- What every step keeps, every run keeps. -/
theorem run_keeps {P : State → Prop} (hstep : ∀ s t, P s → step s = .next t → P t) (k : Nat) {s t : State} (hs : P s)
    (h : Host.Core.run Sys2Proof.core k s = .next t) : P t := by
  induction k generalizing s with
  | zero => exact Host.Outcome.next.inj h ▸ hs
  | succ k ih =>
    cases hu : step s with
    | next u =>
      refine ih (hstep s u hs hu) ?_
      simpa [Host.Core.run, Sys2Proof.core, hu] using h
    | fault e => simp [Host.Core.run, Sys2Proof.core, hu] at h
    | refused q => simp [Host.Core.run, Sys2Proof.core, hu] at h

/-- Cell `n` holds `v` (or is missing, for `none`), and nothing pending may write it. -/
structure HoldsUnthreatened (n : Nat) (v : Option Raw) (s : State) : Prop where
  cell_eq : s.cell n = v
  no_writer : ∀ e ∈ s.pending, ¬ mayWrite s.cfg.table n e

theorem HoldsUnthreatened.step {n : Nat} {v : Option Raw} {s t : State} (hs : HoldsUnthreatened n v s)
    (h : Machine.step s = .next t) : HoldsUnthreatened n v t where
  cell_eq := (step_cell_of_not_mayWrite hs.no_writer h).trans hs.cell_eq
  no_writer := fun e he => step_cfg h ▸ hs.no_writer e (step_pending_subset h he)

/-- Settles O55: a cell that nothing pending may write keeps its value and stays so, step after step. -/
theorem cellKeepsItsValueUntilWritten : Obligations.CellKeepsItsValueUntilWritten := by
  intro k s t n hno h
  exact (run_keeps (P := HoldsUnthreatened n (s.cell n)) (fun _ _ => HoldsUnthreatened.step) k ⟨rfl, hno⟩ h).cell_eq

/-- Settles O54. -/
theorem noStepChangesTheConfiguration : Obligations.NoStepChangesTheConfiguration :=
  fun _ _ => step_cfg

/-- Settles O50: no step writes more than one cell, and writing a cell keeps the keys of the storage map. -/
theorem stepKeepsStorageForm : Obligations.StepKeepsStorageForm := by
  intro s t hs h
  rcases step_cases h with ⟨-, rfl⟩ | ⟨n, v, rest, -, rfl⟩ | ⟨c, tr, rest, ans, -, rfl⟩ |
    ⟨c, tr, rest, i, n, u, -, -, -, rfl⟩
  · exact hs
  · exact State.environmentStep_wf _ n v hs
  · exact State.recordResult_wf _ c (State.deliver_wf _ ans hs)
  · exact State.recordResult_wf _ c (State.deliver_wf _ _ (State.setCell_wf _ n u hs))

/-- Settles O56. -/
theorem environmentStepTouchesOnlyVolatileCells : Obligations.EnvironmentStepTouchesOnlyVolatileCells := by
  intro s n v rest hp
  refine ⟨_, step_environment hp, ?_, fun m hm => State.cell_environmentStep_other _ n m v hm, fun hv => ?_, fun hv => ?_⟩
  · unfold State.environmentStep
    split <;> rfl
  · rw [State.environmentStep, if_pos hv]
    exact State.cell_setCell_same _ n v
  · rw [State.environmentStep, if_neg hv]

/-! ### Lookups that find nothing -/

/-- An operation whose lookup finds nothing fails with its operand as given and changes nothing else (R210). -/
theorem exec_of_resolve_fail {i : Instr} {key : RegKey} (s : State) (hkey : lookupKey i = some key)
    (h : resolve s.cfg.table key = .fail (.unknownRegister key)) :
    exec i s = .next { s with result := some (.fail (.unknownRegister key)) } := by
  have hlookup : replyLookup s key = .next { s with result := some (.fail (.unknownRegister key)) } := by
    simp [replyLookup, h, State.reply, State.deliver_eq]
  have hread : replyCsrRead s key = .next { s with result := some (.fail (.unknownRegister key)) } := by
    simp [replyCsrRead, csrRead, h, State.replyRead, State.deliver_eq]
  have hwrite (v : Value) :
      s.replyWrite (csrWrite s key v) = .next { s with result := some (.fail (.unknownRegister key)) } := by
    simp [csrWrite, h, State.replyWrite, State.deliver_eq]
  cases i with
  | resolveName | resolveAddr | resolveNum => obtain rfl := Option.some.inj hkey; exact hlookup
  | csrReadName | csrReadAddr | csrReadNum => obtain rfl := Option.some.inj hkey; exact hread
  | csrWriteName | csrWriteAddr | csrWriteNum => obtain rfl := Option.some.inj hkey; exact hwrite _
  | readWords a =>
    obtain rfl := Option.some.inj hkey
    simp [exec, execReadWords, readPort, h, State.replyRead, State.deliver_eq]
  | writeWords a lo hi =>
    obtain rfl := Option.some.inj hkey
    simp [exec, execWriteWords, writePort, h, State.replyWrite, State.deliver_eq]
  | _ => cases hkey

/-- A word address outside every span is found by no lookup (R172). -/
theorem registerAt_eq_none {T : List Register} {a : Int}
    (h : ∀ r ∈ T, ¬(2 * (r.num : Int) ≤ a ∧ a ≤ 2 * (r.num : Int) + 1)) : registerAt T a = none :=
  List.find?_eq_none.2 fun r hr => by rw [inSpan_iff]; exact h r hr

/-- The lookup by address fails outside every span (R172, R210). -/
theorem resolve_addr_fail {T : List Register} {a : Int}
    (h : ∀ r ∈ T, ¬(2 * (r.num : Int) ≤ a ∧ a ≤ 2 * (r.num : Int) + 1)) :
    resolve T (.addr a) = .fail (.unknownRegister (.addr a)) := by
  simp [resolve, registerAt_eq_none h]

/-- The lookup by number fails where no Register has that number (R173, R210). -/
theorem resolve_num_fail {T : List Register} {n : Int} (h : ∀ r ∈ T, (r.num : Int) ≠ n) :
    resolve T (.num n) = .fail (.unknownRegister (.num n)) := by
  have hnone : registerAt T (2 * n) = none := registerAt_eq_none fun r hr => by have := h r hr; omega
  simp [resolve, hnone]

theorem hasNum_eq_false_iff {T : List Register} {n : Nat} : hasNum T n = false ↔ ∀ r ∈ T, r.num ≠ n := by
  simp [hasNum]

/-- The numbers R25's facts leave to a Register: 1 to 149 and 155 to 231. -/
theorem num_of_tableKnownRows {T : List Register} (h : tableKnownRows T = true) {r : Register} (hr : r ∈ T) :
    (1 ≤ r.num ∧ r.num ≤ 149) ∨ (155 ≤ r.num ∧ r.num ≤ 231) := by
  simp only [tableKnownRows, Bool.and_eq_true, List.all_eq_true, decide_eq_true_eq, Bool.not_eq_true',
    hasNum_eq_false_iff] at h
  obtain ⟨⟨⟨⟨⟨⟨⟨⟨⟨⟨⟨hrange, -⟩, -⟩, -⟩, h150⟩, h151⟩, h152⟩, h153⟩, h154⟩, -⟩, -⟩, -⟩ := h
  have := hrange r hr
  have := h150 r hr
  have := h151 r hr
  have := h152 r hr
  have := h153 r hr
  have := h154 r hr
  omega

/-- Settles O30: no Register that R25's facts allow has such a number or a span that holds such an address. -/
theorem reservedNumbersFailInEveryKnownTable : Obligations.ReservedNumbersFailInEveryKnownTable := by
  intro s hT
  refine ⟨fun a ha i hkey => ?_, fun n hn i hkey => ?_⟩
  · refine exec_of_resolve_fail s hkey (resolve_addr_fail fun r hr => ?_)
    have := num_of_tableKnownRows hT hr
    omega
  · refine exec_of_resolve_fail s hkey (resolve_num_fail fun r hr => ?_)
    have := num_of_tableKnownRows hT hr
    omega

/-! ### Reset and the fixture table -/

/-- After reset the cell of every Register of the table holds `RESET` of its number (R36). -/
theorem State.resetWith_cell (cfg : Config) (f : Nat → Raw) {r : Register} (hr : r ∈ cfg.table) :
    (State.resetWith cfg f).cell r.num = some (f r.num) := by
  have hgraph : (State.resetWith cfg f).cells = (cfg.table.map Register.num).map fun n => (n, f n) := by
    simp [Function.comp_def]
  rw [State.cell, hgraph]
  exact List.lookup_graph f (List.mem_map_of_mem hr)

/-- Settles O53. -/
theorem resetLeavesEveryCellAtItsResetValue : Obligations.ResetLeavesEveryCellAtItsResetValue := by
  intro cfg f hT
  have hInv := State.resetWith_wf cfg f hT
  exact ⟨hInv, fun r hr => State.resetWith_cell cfg f hr, fun n hn => hInv.cell_none hn⟩

/-- R29's table is well formed (R24). -/
theorem tableFix_wf : tableWf tableFix = true := by decide

/-- The bus voltage factor decodes raw 1000 to 888 (R25, R143). -/
theorem busVoltageFactor_isBusVoltageCodec : isBusVoltageCodec (.scaled busVoltageFactor .unsigned32) = true := by
  norm_num [isBusVoltageCodec, busVoltageFactor]

/-- R29's table has every fact of R25 but the length. -/
theorem tableFix_knownRows : tableKnownRows tableFix = true := by
  simp [tableKnownRows, hasNum, tableFix, busVoltageFactor_isBusVoltageCodec]

/-- R29's table of 11 Registers is 169 short of R25's 180 (log 21). -/
theorem tableFix_not_known {tolerance : Nat} (h : tolerance < 169) : tableKnown tolerance tableFix = false := by
  have hshort : ¬ 180 ≤ tableFix.length + tolerance := by
    change ¬ 180 ≤ 11 + tolerance
    omega
  simp [tableKnown, lengthIsAbout180, hshort]

/-- Settles O51. -/
theorem resetHasStorageForm : Obligations.ResetHasStorageForm :=
  State.resetWith_wf fixtureConfig Config.resetValue tableFix_wf

/-- Settles O59. -/
theorem fixtureTableIsKnownButForItsLength : Obligations.FixtureTableIsKnownButForItsLength :=
  ⟨tableFix_wf, tableFix_knownRows, fun _ => tableFix_not_known, rfl, rfl⟩

end Sys2Proof.Machine
end

section
/-! PROOFS. The word view of the storage, accesses to gaps, repeated reads and writes at the bus port, and the step of a
decoded transaction. -/

namespace Sys2Proof.Machine

/-! ### The word view -/

/-- Where no Register's span holds the address, no word exists (R52). -/
theorem State.word_eq_none {s : State} {a : Int}
    (h : ∀ r ∈ s.cfg.table, ¬(2 * (r.num : Int) ≤ a ∧ a ≤ 2 * (r.num : Int) + 1)) : s.word a = none := by
  simp [State.word, registerAt_eq_none h]

/-- The word at the even address of a Register is the low word of its cell (R52). -/
theorem State.Inv.word_low {s : State} (h : s.Inv) {r : Register} (hr : r ∈ s.cfg.table) {v : Raw}
    (hv : s.cell r.num = some v) : s.word (2 * (r.num : Int)) = some (lowWord v) := by
  have hT : tableWf s.cfg.table = true := ((Memory.wf_iff _ _).1 h).1
  simp [State.word, registerAt_of_mem hT hr (a := 2 * (r.num : Int)) (by omega), hv]

/-- The word at the odd address of a Register is the high word of its cell (R52). -/
theorem State.Inv.word_high {s : State} (h : s.Inv) {r : Register} (hr : r ∈ s.cfg.table) {v : Raw}
    (hv : s.cell r.num = some v) : s.word (2 * (r.num : Int) + 1) = some (highWord v) := by
  have hT : tableWf s.cfg.table = true := ((Memory.wf_iff _ _).1 h).1
  simp [State.word, registerAt_of_mem hT hr (a := 2 * (r.num : Int) + 1) (by omega), hv]

/-- Settles O40. -/
theorem wordViewSpellsTheCell : Obligations.WordViewSpellsTheCell := by
  intro s hs
  refine ⟨fun r hr => ?_, fun a ha => State.word_eq_none fun r hr => ?_⟩
  · obtain ⟨v, hv⟩ := hs.cell_of_mem hr
    have hlo := lowWord_toNat v
    have hhi := highWord_toNat v
    exact ⟨v, lowWord v, highWord v, hv, hs.word_low hr hv, hs.word_high hr hv, hlo, hhi, by omega⟩
  · have := ha r hr
    omega

/-! ### Gaps -/

/-- Settles O29: neither address of a gap's number lies in the span of any Register. -/
theorem everyAccessToAGapFails : Obligations.EveryAccessToAGapFails := by
  intro s n hgap
  have houtside (a : Int) (ha : a = 2 * n ∨ a = 2 * n + 1) :
      ∀ r ∈ s.cfg.table, ¬(2 * (r.num : Int) ≤ a ∧ a ≤ 2 * (r.num : Int) + 1) := by
    intro r hr
    have := hgap r hr
    omega
  refine ⟨fun a ha i hkey => ?_, fun i hkey => ?_, ?_, ?_, fun hs m hm => ?_⟩
  · exact exec_of_resolve_fail s hkey (resolve_addr_fail (houtside a ha))
  · exact exec_of_resolve_fail s hkey (resolve_num_fail hgap)
  · exact State.word_eq_none (houtside _ (.inl rfl))
  · exact State.word_eq_none (houtside _ (.inr rfl))
  · refine hs.cell_none fun r hr hrm => hgap r hr ?_
    omega

/-! ### Reading and writing again -/

/-- Of two outcomes delivered one after the other the result port holds the second (R12). -/
@[simp] theorem State.deliver_deliver (s : State) (x y : Answer Result) : (s.deliver x).deliver y = s.deliver y := by
  simp [State.deliver_eq]

/-- Writing a cell and delivering an outcome touch different fields. -/
theorem State.setCell_deliver (s : State) (n : Nat) (v : Raw) (x : Answer Result) :
    (s.deliver x).setCell n v = (s.setCell n v).deliver x := by
  simp [State.deliver_eq, State.setCell]

/-- Writing a value a second time leaves the storage as the first time left it (R58). -/
@[simp] theorem State.setCell_setCell_same (s : State) (n : Nat) (v : Raw) :
    (s.setCell n v).setCell n v = s.setCell n v := by
  simp only [State.setCell, List.map_map, State.mk.injEq, true_and, and_true]
  apply List.map_congr_left
  intro c _
  by_cases h : c.1 = n <;> simp [h]

/-- The port reads the storage, not the result port (R185). -/
@[simp] theorem readPort_deliver (s : State) (a : Int) (x : Answer Result) : readPort (s.deliver x) a = readPort s a := by
  simp [readPort]

/-- Once the lookup and both checks pass, a write turns on the Register's cell alone (R186). -/
theorem writePort_of_checked {s : State} {a : Int} {r : Register} (w : WordPair)
    (he : resolve s.cfg.table (.addr a) = .ok r) (hc : checkPairAddress s.cfg r a = .ok ()) :
    writePort s a (.ok w) =
      (s.cell r.num).elim (.error (.missingCell r.num)) fun _ => .ok (.ok (s.setCell r.num (rawOf w))) := by
  cases hw : s.cfg.wordCheck <;> cases hv : s.cell r.num <;> simp [writePort, he, hc, hw, hv]

/-- A write that took effect takes effect again and leaves the same storage (R58). -/
theorem writePort_again {s s' : State} {a : Int} {words : Answer WordPair} (h : writePort s a words = .ok (.ok s')) :
    writePort s' a words = .ok (.ok s') := by
  obtain ⟨r, -, w, he, rfl, hc, rfl⟩ := writePort_ok h
  rw [writePort_of_checked w he hc] at h
  cases hv : s.cell r.num with
  | none => simp [hv] at h
  | some v => simp [writePort_of_checked (s := s.setCell r.num (rawOf w)) w he hc, State.cell_setCell_same, hv]

/-- A write acts alike whatever the result port holds (R186). -/
theorem writePort_deliver (s : State) (a : Int) (words : Answer WordPair) (x : Answer Result) :
    writePort (s.deliver x) a words = (writePort s a words).map (Answer.map fun s' => s'.deliver x) := by
  unfold writePort
  simp only [State.deliver_cfg, State.cell_deliver, State.setCell_deliver]
  generalize ((resolve s.cfg.table (.addr a)).andThen _ : Answer (Register × WordPair)) = target
  rcases target with ⟨r, w⟩ | f | q
  · cases hv : s.cell r.num <;> simp [hv, Except.map]
  · rfl
  · rfl

/-- `READWORDS` a second time answers what it answered (R58). -/
theorem execReadWords_again {s t : State} {a : Int} (h : execReadWords a s = .next t) : execReadWords a t = .next t := by
  unfold execReadWords at h ⊢
  obtain ⟨ans, hans, rfl⟩ := State.replyRead_next h
  simp [hans, State.replyRead]

/-- `WRITEWORDS` of the same operands a second time does nothing more, whether it took effect or was turned away (R58). -/
theorem execWriteWords_again {s t : State} {a lo hi : Int} (h : execWriteWords a lo hi s = .next t) :
    execWriteWords a lo hi t = .next t := by
  unfold execWriteWords at h ⊢
  rcases State.replyWrite_next h with ⟨s', hx, rfl⟩ | ⟨f, hx, rfl⟩ | ⟨q, hx, rfl⟩
  · simp [writePort_deliver, writePort_again hx, Except.map, State.replyWrite]
  · simp [writePort_deliver, hx, Except.map, State.replyWrite]
  · simp [writePort_deliver, hx, Except.map, State.replyWrite]

/-- Settles O41. -/
theorem readsAndWritesAreIdempotent : Obligations.ReadsAndWritesAreIdempotent :=
  ⟨fun _ _ _ => execReadWords_again, fun _ _ _ _ _ => execWriteWords_again⟩

/-! ### The step of a decoded transaction -/

/-- Settles O46: one case for each way an operation can end. -/
theorem stepRunsTheDecodedTransaction : Obligations.StepRunsTheDecodedTransaction := by
  intro s c t rest i hp hd
  cases he : exec i { s with pending := rest } with
  | next s' => simp only [step, hp, hd, he]
  | fault e => simp only [step, hp, hd, he]
  | refused q => simp only [step, hp, hd, he]

end Sys2Proof.Machine
end

section
/-! PROOFS. The decoder against the encoder (R80, R91, R92), the step of a reserved opcode, the runner after an outcome
(R97), the pure operations of a conforming caller (R95, R214), and R96's example line. -/

namespace Sys2Proof.Machine

/-! ### The opcode map and the encoder -/

/-- The decoder gives an operation exactly where the opcode map does (R91). -/
theorem decode_ok_iff {t : Transaction} {i : Instr} : decode t = .ok i ↔ operationAt t.op.toNat t.ports = some i := by
  cases h : operationAt t.op.toNat t.ports <;> simp [decode, h]

/-- The map reads every operation back from its own opcode and ports (R80, R91). -/
theorem operationAt_opcode_ports (i : Instr) : operationAt i.opcode.toNat i.ports = some i := by
  cases i <;> rfl

/-- The map has an operation at every operation's opcode, whatever the ports carry (R91). -/
theorem exists_operationAt_opcode (i : Instr) (p : OperandPorts) : ∃ j, operationAt i.opcode.toNat p = some j := by
  cases i <;> exact ⟨_, rfl⟩

/-- The operation the map gives at a number has that number as its opcode: one case for each row (R91). -/
theorem opcode_toNat_of_operationAt {n : Nat} {p : OperandPorts} {i : Instr} (h : operationAt n p = some i) :
    i.opcode.toNat = n := by
  unfold operationAt at h
  split at h <;> cases h <;> rfl

/-- A transaction decodes only to an operation with its own opcode (R91). -/
theorem opcode_of_decode {t : Transaction} {i : Instr} (h : decode t = .ok i) : i.opcode = t.op :=
  BitVec.eq_of_toNat_eq (opcode_toNat_of_operationAt (decode_ok_iff.1 h))

/-- The decoder inverts the encoder (R80). -/
theorem decode_encode (i : Instr) : decode (encode i) = .ok i :=
  decode_ok_iff.2 (operationAt_opcode_ports i)

/-- A transaction decodes exactly when its opcode is that of some operation (R91). -/
theorem exists_decode_ok_iff (t : Transaction) : (∃ i, decode t = .ok i) ↔ ∃ i : Instr, i.opcode = t.op := by
  constructor
  · rintro ⟨i, h⟩
    exact ⟨i, opcode_of_decode h⟩
  · rintro ⟨i, h⟩
    obtain ⟨j, hj⟩ := exists_operationAt_opcode i t.ports
    exact ⟨j, decode_ok_iff.2 (h ▸ hj)⟩

/-- Settles O49. -/
theorem decodeInvertsEncode : Obligations.DecodeInvertsEncode := by
  refine ⟨decode_encode, fun t i h => ?_, exists_decode_ok_iff⟩
  have hop := opcode_of_decode h
  exact ⟨hop, hop ▸ decode_encode i⟩

/-- Settles O48: each row by evaluating the opcode map. -/
theorem opcodeMapRows : Obligations.OpcodeMapRows := fun _ => ⟨rfl, rfl, rfl, rfl, rfl⟩

/-! ### The runner's record of an outcome -/

theorem Answer.isOk_iff {α : Type} {x : Answer α} : x.isOk = true ↔ ∃ v, x = .ok v := by
  cases x <;> simp [Answer.isOk]

/-- The runner records the outcome on the result port (R97). -/
theorem State.recordResult_of_result {s : State} {ans : Answer Result} (c : Nat) (h : s.result = some ans) :
    s.recordResult c = s.record c ans := by
  simp only [State.recordResult, h]

/-- After `ok`, or under `continue`, the runner keeps the outcome and does no more (R97). -/
theorem State.record_of_goesOn {s : State} {ans : Answer Result} (c : Nat)
    (h : (∃ v, ans = .ok v) ∨ s.cfg.onError = .continue_) : s.record c ans = s.keep c ans :=
  if_pos (h.imp_left Answer.isOk_iff.2)

/-- After a failure or a refusal under `abort` the runner ends the caller's script and keeps the outcome (R97). -/
theorem State.record_of_stops {s : State} {ans : Answer Result} (c : Nat) (hans : ∀ v, ans ≠ .ok v)
    (habort : s.cfg.onError = .abort) : s.record c ans = (s.stopScript c ans).keep c ans := by
  refine if_neg ?_
  rintro (hok | hcontinue)
  · obtain ⟨v, hv⟩ := Answer.isOk_iff.1 hok
    exact hans v hv
  · simp [habort] at hcontinue

/-! ### The step of a transaction -/

/-- An operation that completes changes at most the storage and the result port (R21, R63). -/
theorem exec_frame {i : Instr} {s t : State} (h : exec i s = .next t) :
    t = { s with cells := t.cells, result := t.result } := by
  rcases exec_cases h with ⟨ans, rfl⟩ | ⟨n, u, -, rfl⟩ <;> simp [State.deliver_eq, State.setCell]

/-- A transaction with a reserved opcode does not decode (R92). -/
theorem decode_reserved {t : Transaction} (h : ∀ i : Instr, i.opcode ≠ t.op) :
    decode t = .error (.reservedOpcode t.op) := by
  cases hop : operationAt t.op.toNat t.ports with
  | none => simp only [decode, hop]
  | some i => exact absurd (opcode_of_decode (decode_ok_iff.2 hop)) (h i)

/-- A reserved opcode is refused, and the refusal recorded for its caller (R92, R97). -/
theorem step_reserved {s : State} {c : Nat} {t : Transaction} {rest : List Event} (hp : s.pending = .call c t :: rest)
    (h : ∀ i : Instr, i.opcode ≠ t.op) :
    step s = .next (State.record { s with pending := rest, result := some (.refused .reservedOpcode) } c
      (.refused .reservedOpcode)) := by
  simp only [step, hp, decode_reserved h, State.refuseReserved, State.deliver_eq]
  rw [State.recordResult_of_result c rfl]

/-- A decoded transaction that completes has its outcome recorded for its caller (R97). -/
theorem step_of_exec {s u : State} {c : Nat} {t : Transaction} {rest : List Event} {i : Instr} {ans : Answer Result}
    (hp : s.pending = .call c t :: rest) (hd : decode t = .ok i) (he : exec i { s with pending := rest } = .next u)
    (hu : u.result = some ans) : step s = .next (u.record c ans) := by
  rw [stepRunsTheDecodedTransaction s c t rest i hp hd, he, ← State.recordResult_of_result c hu]

/-- Exactly 226 opcode bytes have no operation, by evaluating the opcode map at all 256 (R92). -/
theorem reservedBytes_length : ((List.range 256).filter fun b => (decodeTableWord 8 b).isNone).length = 226 := by
  decide +kernel

/-- Settles O47. -/
theorem reservedOpcodesAreRefused : Obligations.ReservedOpcodesAreRefused :=
  ⟨fun _ _ _ _ hp h => ⟨_, step_reserved hp h, by simp⟩, reservedBytes_length⟩

/-- Settles O57: whether decoded or reserved, the transaction's step records `ans` in a state that differs from the one
before only in storage, result port and the transaction taken; what follows is the record's two cases. -/
theorem runnerStopsAScriptOnlyUnderAbort : Obligations.RunnerStopsAScriptOnlyUnderAbort := by
  intro s u c t rest ans hp hu hran
  have hstep : step s = .next (u.record c ans) ∧ u = { s with pending := rest, cells := u.cells, result := u.result } := by
    rcases hran with ⟨i, hd, he⟩ | ⟨hreserved, rfl⟩
    · exact ⟨step_of_exec hp hd he hu, exec_frame he⟩
    · obtain rfl := Option.some.inj hu
      exact ⟨step_reserved hp hreserved, rfl⟩
  obtain ⟨hstep, hframe⟩ := hstep
  have hcfg : u.cfg = s.cfg := by rw [hframe]
  have hpending : u.pending = rest := by rw [hframe]
  have hlog : u.log = s.log := by rw [hframe]
  have hreports : u.reports = s.reports := by rw [hframe]
  refine ⟨_, hstep, by simp [hu], by simp, by simp [hlog], fun hgo => ?_, fun hans habort => ?_⟩
  · rw [State.record_of_goesOn c (hcfg ▸ hgo)]
    exact ⟨hpending, hreports⟩
  · rw [State.record_of_stops c hans (hcfg ▸ habort)]
    refine ⟨?_, by simp [hreports, hlog, State.position]⟩
    rw [State.keep_pending, State.stopScript_pending, hpending]
    exact List.filter_congr fun e _ => by cases e <;> rfl

/-! ### Conforming outcomes -/

@[simp] theorem Answer.conforming_map {α β : Type} (f : α → β) (x : Answer α) :
    (x.map f).conforming = x.conforming := by
  cases x <;> rfl

/-- A sequence of steps that a conforming caller can see is one (R98, R214). -/
theorem Answer.conforming_andThen {α β : Type} {x : Answer α} {f : α → Answer β} (hx : x.conforming = true)
    (hf : ∀ v, (f v).conforming = true) : (x.andThen f).conforming = true := by
  cases x with
  | ok v => exact hf v
  | fail e => rfl
  | refused q => cases hx

theorem isWord_iff {w : Int} : isWord w = true ↔ 0 ≤ w ∧ w ≤ 65535 := by
  simp [isWord]

/-- Word operands inside U16 are not refused (R95). -/
theorem pairOperand_conforming {lo hi : Int} (hlo : isWord lo = true) (hhi : isWord hi = true) :
    (pairOperand lo hi).conforming = true := by
  obtain ⟨w, hw, -, -⟩ := pairOperand_ok lo hi (isWord_iff.1 hlo) (isWord_iff.1 hhi)
  rw [hw]
  rfl

/-- A lookup succeeds or fails (R171 to R173). -/
theorem resolve_conforming (T : List Register) (key : RegKey) : (resolve T key).conforming = true := by
  rcases resolve_cases T key with ⟨r, -, he⟩ | he <;> rw [he] <;> rfl

/-- `DEC.MODE` decodes or fails (R145). -/
theorem decodeMode_conforming (w : WordPair) : (decodeMode w).conforming = true := by
  simp only [decodeMode]
  split_ifs <;> rfl

/-- `DEC.SCALED` is not refused under exact numerics (R140, D29). -/
theorem decodeScaled_conforming (k : Rat) (kind : Kind) (w : WordPair) :
    (decodeScaled .exact k kind w).conforming = true := by
  unfold decodeScaled
  split_ifs <;> rfl

/-- `ENC.SCALED` of a number is not refused under exact numerics (R141, D29). -/
theorem encodeScaled_conforming (tie : RoundTie) (k : Rat) (kind : Kind) {p : Phys} (hp : p.isFinite = true) :
    (encodeScaled .exact tie k kind p).conforming = true := by
  cases p with
  | finite q => rfl
  | posInf | negInf | nan => cases hp

/-- `ENC.BITS` of 32 positions is not refused (R148). -/
theorem encodeBits_conforming {b : List Bool} (hb : (b.length == 32) = true) : (encodeBits b).conforming = true := by
  rw [encodeBits, if_pos (beq_iff_eq.1 hb)]
  rfl

/-- `DECODE` is not refused under exact numerics (R160). -/
theorem decodeBy_conforming {cfg : Config} (hexact : cfg.numerics = .exact) (codec : Codec) (w : WordPair) :
    (decodeBy cfg codec w).conforming = true := by
  cases codec with
  | rawUnsigned | rawSigned | bitfield => rfl
  | scaled k kind => simpa only [decodeBy, hexact] using decodeScaled_conforming k kind w
  | mode => exact decodeMode_conforming w

/-- `ENCODE` of a well-formed value that fits the codec is not refused under exact numerics (R161). -/
theorem encodeBy_conforming {cfg : Config} (hexact : cfg.numerics = .exact) {codec : Codec} {v : Value}
    (hv : v.wellFormed = true) (hfits : v.fits codec = true) : (encodeBy cfg codec v).conforming = true := by
  cases v <;> cases codec <;> simp only [Value.fits, Bool.false_eq_true] at hfits
  case uint.rawUnsigned | sint.rawSigned | mode.mode => rfl
  case phys.scaled p k kind => simpa only [encodeBy, hexact] using encodeScaled_conforming cfg.roundTie k kind hv
  case bits.bitfield b => exact encodeBits_conforming hv

/-! ### Operations of a conforming caller -/

/-- The operation completes with an outcome that a conforming caller can see, and changes the result port alone. -/
def AnswersConforming (s : State) (o : Host.Outcome State Fault Refusal) : Prop :=
  ∃ ans, o = .next { s with result := some ans } ∧ ans.conforming = true

theorem AnswersConforming.reply (s : State) {ans : Answer Result} (h : ans.conforming = true) :
    AnswersConforming s (s.reply ans) :=
  ⟨ans, by rw [State.reply, State.deliver_eq], h⟩

theorem AnswersConforming.replyWords (s : State) {ans : Answer WordPair} (h : ans.conforming = true) :
    AnswersConforming s (replyWords s ans) :=
  .reply s ((ans.conforming_map _).trans h)

theorem AnswersConforming.replyLookup (s : State) (key : RegKey) : AnswersConforming s (replyLookup s key) :=
  .reply s ((Answer.conforming_map _ _).trans (resolve_conforming s.cfg.table key))

theorem AnswersConforming.replyDecoded (s : State) {lo hi : Int} {dec : WordPair → Answer Value}
    (hlo : isWord lo = true) (hhi : isWord hi = true) (h : ∀ w, (dec w).conforming = true) :
    AnswersConforming s (replyDecoded s lo hi dec) :=
  .reply s ((Answer.conforming_map _ _).trans (Answer.conforming_andThen (pairOperand_conforming hlo hhi) h))

/-- Settles O44: one case for each end an operation of families 0x0 to 0x3 has, none of which refuses operands inside their
domains. -/
theorem wellFormedPureOperationsAreNotRefused : Obligations.WellFormedPureOperationsAreNotRefused := by
  intro i s hwf hpure hexact
  change AnswersConforming s (exec i s)
  cases i with
  | explode x n =>
    have hdomain : 0 ≤ n ∧ 0 ≤ x ∧ x < 2 ^ n.toNat := by simpa [Instr.wellFormed, and_assoc] using hwf
    rw [show exec (.explode x n) s = s.reply _ from if_pos hdomain]
    exact .reply s rfl
  | implode | addr => exact .reply s rfl
  | toWordsU | toWordsS | encRawU | encRawS | encMode => exact .replyWords s rfl
  | resolveName | resolveAddr | resolveNum => exact .replyLookup s _
  | fromWordsU lo hi | fromWordsS lo hi =>
    obtain ⟨hlo, hhi⟩ := Bool.and_eq_true_iff.1 hwf
    exact .reply s ((Answer.conforming_map _ _).trans (pairOperand_conforming hlo hhi))
  | decRawU lo hi | decRawS lo hi | decBits lo hi =>
    obtain ⟨hlo, hhi⟩ := Bool.and_eq_true_iff.1 hwf
    exact .replyDecoded s hlo hhi fun _ => rfl
  | decMode lo hi =>
    obtain ⟨hlo, hhi⟩ := Bool.and_eq_true_iff.1 hwf
    exact .replyDecoded s hlo hhi decodeMode_conforming
  | decScaled k kind lo hi =>
    simp only [Instr.wellFormed, Bool.and_eq_true] at hwf
    obtain ⟨⟨-, hlo⟩, hhi⟩ := hwf
    exact .replyDecoded s hlo hhi (hexact ▸ decodeScaled_conforming k kind)
  | decode r lo hi =>
    simp only [Instr.wellFormed, Bool.and_eq_true] at hwf
    obtain ⟨⟨-, hlo⟩, hhi⟩ := hwf
    exact .replyDecoded s hlo hhi (decodeBy_conforming hexact r.codec)
  | encScaled k kind p =>
    obtain ⟨-, hp⟩ := Bool.and_eq_true_iff.1 hwf
    exact .replyWords s (hexact ▸ encodeScaled_conforming s.cfg.roundTie k kind hp)
  | encBits b => exact .replyWords s (encodeBits_conforming hwf)
  | encode r v =>
    simp only [Instr.wellFormed, Bool.and_eq_true] at hwf
    obtain ⟨⟨-, hv⟩, hfits⟩ := hwf
    exact .replyWords s (encodeBy_conforming hexact hv hfits)
  | readWords | writeWords | csrReadName | csrWriteName | csrReadAddr | csrWriteAddr | csrReadNum | csrWriteNum =>
    simp [touchesNoStorage, Instr.opcode] at hpure

/-! ### R96's example line -/

/-- The tokens of R96's example line. -/
def exampleTokens : List Token :=
  [.word "CSRWRITE.NAME".toList, .str "MODE_REG".toList, .sym ',', .word "mode".toList, .sym '(',
    .word "VELOCITY".toList, .sym ')', .sym '=', .sym '>', .word "done".toList]

theorem lexLine_example :
    lexLine (.text []) "CSRWRITE.NAME \"MODE_REG\", mode(VELOCITY)  => done".toList = some exampleTokens := by
  decide +kernel

/-- No reader that looks a Register up takes part in reading the example's tokens. -/
theorem lineOf_exampleTokens (T : List Register) :
    lineOf T exampleTokens =
      some { op := .csrWriteName "MODE_REG" (.mode .velocity), expected := some (.ok .done) } :=
  rfl

/-- Settles O60. -/
theorem scriptExampleLineReads : Obligations.ScriptExampleLineReads := by
  intro T
  simp only [parseLine, lexLine_example]
  exact congrArg (Option.map some) (lineOf_exampleTokens T)

end Sys2Proof.Machine
end

section
/-! PROOFS. The bit utilities (R110 to R112), and the flag codec position by position (R115, R147, R148). -/

namespace Sys2Proof.Machine

/-! ### The bits of a weighted sum -/

/-- Prepending a position is Mathlib's `Nat.bit` (R111). -/
theorem implodeBits_cons_eq_bit (b : Bool) (bs : List Bool) : implodeBits (b :: bs) = Nat.bit b (implodeBits bs) := by
  rw [implodeBits_cons, Nat.bit_val, Nat.add_comm]

/-- Bit `i` of the weighted sum is position `i`, zero beyond the sequence (R111). -/
theorem testBit_implodeBits (bits : List Bool) (i : Nat) : (implodeBits bits).testBit i = bits[i]?.getD false := by
  induction bits generalizing i with
  | nil => simp [implodeBits_nil]
  | cons b bs ih =>
    rw [implodeBits_cons_eq_bit]
    cases i with
    | zero => simp
    | succ i => simp [Nat.testBit_bit_succ, ih]

/-- The weighted sum of `n` positions has no bit at or above `n` (R111). -/
theorem implodeBits_lt (bits : List Bool) : implodeBits bits < 2 ^ bits.length :=
  Nat.lt_pow_two_of_testBit _ fun i hi => by simp [testBit_implodeBits, List.getElem?_eq_none hi]

/-- The recursion of `IMPLODE` against R111's sum over the positions. -/
theorem implodeBits_eq_sum (bits : List Bool) :
    implodeBits bits = ∑ i ∈ Finset.range bits.length, (if bits[i]? = some true then 2 ^ i else 0) := by
  induction bits with
  | nil => simp [implodeBits_nil]
  | cons b bs ih =>
    rw [implodeBits_cons, ih, List.length_cons, Finset.sum_range_succ', Finset.mul_sum, Nat.add_comm]
    congr 1
    · refine Finset.sum_congr rfl fun i _ => ?_
      simp [pow_succ, Nat.mul_comm]
    · cases b <;> simp

/-! ### The round trips -/

/-- A natural below `2^n` is the weighted sum of its first `n` bits (R112). -/
theorem implodeBits_explodeBits {x n : Nat} (hx : x < 2 ^ n) : implodeBits (explodeBits x n) = x := by
  refine Nat.eq_of_testBit_eq fun i => ?_
  rw [testBit_implodeBits]
  by_cases hi : i < n
  · rw [explodeBits_get x n i hi, Option.getD_some]
  · have hhigh : x < 2 ^ i := hx.trans_le (Nat.pow_le_pow_right Nat.two_pos (Nat.le_of_not_lt hi))
    rw [List.getElem?_eq_none (by simpa using hi), Option.getD_none, Nat.testBit_lt_two_pow hhigh]

/-- The bits of a sequence's weighted sum are the sequence (R112). -/
theorem explodeBits_implodeBits (bits : List Bool) : explodeBits (implodeBits bits) bits.length = bits := by
  refine List.ext_getElem? fun i => ?_
  by_cases hi : i < bits.length
  · rw [explodeBits_get _ _ i hi, testBit_implodeBits, List.getElem?_eq_getElem hi, Option.getD_some]
  · rw [List.getElem?_eq_none (by simpa using hi), List.getElem?_eq_none (Nat.le_of_not_lt hi)]

/-! ### The bits of a word pair -/

/-- Position `i` of a decoded flag set is bit `i` of the pair's raw value (R147). -/
theorem explodeBits_rawOf_get (w : WordPair) {i : Nat} (hi : i < 32) :
    (explodeBits (rawOf w).toNat 32)[i]? = some ((w.hi ++ w.lo).getLsbD i) :=
  explodeBits_get _ _ i hi

/-- Splitting keeps bits 31:0 (R125, R127). -/
theorem getLsbD_split32 (n : Nat) {i : Nat} (hi : i < 32) :
    ((split32 n).hi ++ (split32 n).lo).getLsbD i = n.testBit i := by
  have hraw : (split32 n).hi ++ (split32 n).lo = BitVec.ofNat 32 n := rawOf_split32 n
  rw [hraw, BitVec.getLsbD_ofNat, decide_eq_true hi, Bool.true_and]

/-! ### What the operations answer -/

/-- `EXPLODE` on its domain, where both operands are naturals (R110). -/
theorem exec_explode {x n : Nat} (hx : x < 2 ^ n) (s : State) :
    exec (.explode x n) s = .next { s with result := some (.ok (.bits (explodeBits x n))) } :=
  if_pos ⟨Int.natCast_nonneg n, Int.natCast_nonneg x, by exact_mod_cast hx⟩

/-- `EXPLODE` outside its domain (R114, R214). -/
theorem exec_explode_refused {x n : Int} (h : ¬(0 ≤ n ∧ 0 ≤ x ∧ x < 2 ^ n.toNat)) (s : State) :
    exec (.explode x n) s = .next { s with result := some (.refused .explodeDomain) } :=
  if_neg h

/-- `IMPLODE` always completes (R111). -/
theorem exec_implode (bits : List Bool) (s : State) :
    exec (.implode bits) s = .next { s with result := some (.ok (.int (implodeBits bits))) } :=
  rfl

/-- `DEC.BITS` of two words (R147). -/
theorem exec_decBits (lo hi : Word) (s : State) :
    exec (.decBits lo.toNat hi.toNat) s =
      .next { s with result := some (.ok (.value (.bits (explodeBits (rawOf { lo, hi }).toNat 32)))) } := by
  change replyDecoded s lo.toNat hi.toNat decodeBits = _
  rw [replyDecoded, pairOperand_words]
  rfl

/-- `ENC.BITS` of 32 positions (R148). -/
theorem exec_encBits {b : List Bool} (hb : b.length = 32) (s : State) :
    exec (.encBits b) s =
      .next { s with result := some (.ok (.words (split32 (implodeBits b)).lo (split32 (implodeBits b)).hi)) } := by
  change replyWords s (encodeBits b) = _
  rw [encodeBits, if_pos hb]
  rfl

/-! ### The statements -/

/-- Settles O1. -/
theorem explodeListsBitsLsbFirst : Obligations.ExplodeListsBitsLsbFirst := by
  refine fun x n s => ⟨rfl, fun hn hx hlt => ?_, fun hout => exec_explode_refused hout s⟩
  lift n to Nat using hn
  lift x to Nat using hx
  refine ⟨explodeBits x n, exec_explode (by exact_mod_cast hlt) s, explodeBits_length x n, fun i hi => ?_⟩
  rw [explodeBits_get x n i hi, Nat.testBit_eq_decide_div_mod_eq]
  norm_cast

/-- Settles O2. -/
theorem implodeIsTheWeightedSum : Obligations.ImplodeIsTheWeightedSum := fun bits s =>
  ⟨rfl, implodeBits bits, exec_implode bits s, implodeBits_eq_sum bits, implodeBits_lt bits⟩

/-- Settles O3. -/
theorem implodeAndExplodeAreInverse : Obligations.ImplodeAndExplodeAreInverse := by
  refine ⟨fun x n s hn hx hlt => ?_, fun bits s => ⟨implodeBits bits, exec_implode bits s, ?_⟩⟩
  · lift n to Nat using hn
    lift x to Nat using hx
    have hlt : x < 2 ^ n := by exact_mod_cast hlt
    exact ⟨explodeBits x n, exec_explode hlt s, by rw [exec_implode, implodeBits_explodeBits hlt]⟩
  · rw [exec_explode (implodeBits_lt bits), explodeBits_implodeBits]

/-- Settles O4: each direction carries position `i` to and from bit `i` of the pair's raw value. -/
theorem flagPositionsAreIndependent : Obligations.FlagPositionsAreIndependent := by
  refine ⟨fun lo hi lo' hi' s i hi32 hbit => ?_, fun b b' s i hb hb' hi32 hpos => ?_⟩
  · refine ⟨_, _, exec_decBits lo hi s, exec_decBits lo' hi' s, ?_⟩
    rw [explodeBits_rawOf_get _ hi32, explodeBits_rawOf_get _ hi32, hbit]
  · refine ⟨_, _, _, _, exec_encBits hb s, exec_encBits hb' s, ?_⟩
    rw [getLsbD_split32 _ hi32, getLsbD_split32 _ hi32, testBit_implodeBits, testBit_implodeBits, hpos]

end Sys2Proof.Machine
end

section
/-! PROOFS. The word codec (R120 to R127): what each operation answers, then its statements. -/

namespace Sys2Proof.Machine

/-! ### The signed reading on integers -/

/-- The two's complement reading of a value is R10's reading of its integer. -/
theorem toSigned32_eq_signedReading (u : Raw) : toSigned32 u = signedReading u.toNat := by
  rw [toSigned32_eq, signedReading]
  norm_cast

/-- The signed reading of a remainder modulo 2^32 gives an `S32` back (R10, R124). -/
theorem signedReading_emod {v : Int} (hv : inKind .signed32 v) : signedReading (v % 4294967296) = v := by
  obtain ⟨hmin, hmax⟩ : -2147483648 ≤ v ∧ v ≤ 2147483647 := hv
  rw [signedReading]
  split <;> omega

/-- A pair reads as negative exactly when bit 15 of its high word is set (R123). -/
theorem signedReading_pairValue_neg_iff {lo hi : Int} (hlo : inU16 lo) (hhi : inU16 hi) :
    signedReading (pairValue lo hi) < 0 ↔ 32768 ≤ hi := by
  rw [signedReading, pairValue]
  split <;> omega

/-! ### Splitting and joining -/

/-- The two words of a split carry the integer modulo 2^32 (R125). -/
theorem pairCarries_split32 (v : Int) : PairCarries (split32 v).lo (split32 v).hi v :=
  ⟨split32_lo v, split32_hi v⟩

/-- Splitting a pair's value, read by either kind, gives the pair back (R124). -/
theorem split32_readRaw (kind : Kind) (w : WordPair) : split32 (readRaw kind (rawOf w)) = w := by
  rw [split32, wrap32_readRaw, wordsOf_rawOf]

/-! ### What the operations answer -/

/-- An answer of a pure operation changes the result port alone, whatever it is (R12). -/
theorem State.reply_eq_next (s : State) (ans : Answer Result) : s.reply ans = .next { s with result := some ans } := by
  rw [State.reply, State.deliver_eq]

/-- `TOWORDS.U` always completes (R120). -/
theorem exec_toWordsU (v : Int) (s : State) :
    exec (.toWordsU v) s = .next { s with result := some (.ok (.words (split32 v).lo (split32 v).hi)) } :=
  rfl

/-- `TOWORDS.S` always completes, with the same pair (R121). -/
theorem exec_toWordsS (v : Int) (s : State) :
    exec (.toWordsS v) s = .next { s with result := some (.ok (.words (split32 v).lo (split32 v).hi)) } :=
  rfl

/-- `FROMWORDS.U` turns on the check of its word operands alone (R122). -/
theorem exec_fromWordsU (lo hi : Int) (s : State) :
    exec (.fromWordsU lo hi) s =
      .next { s with result := some ((pairOperand lo hi).map fun w => .int (rawOf w).toNat) } :=
  State.reply_eq_next s _

/-- `FROMWORDS.S` turns on the check of its word operands alone (R123). -/
theorem exec_fromWordsS (lo hi : Int) (s : State) :
    exec (.fromWordsS lo hi) s =
      .next { s with result := some ((pairOperand lo hi).map fun w => .int (toSigned32 (rawOf w))) } :=
  State.reply_eq_next s _

/-- `FROMWORDS.U` of the words of a pair (R122). -/
theorem exec_fromWordsU_words (w : WordPair) (s : State) :
    exec (.fromWordsU w.lo.toNat w.hi.toNat) s = .next { s with result := some (.ok (.int (rawOf w).toNat)) } := by
  rw [exec_fromWordsU, pairOperand_words, Answer.map_ok]

/-- `FROMWORDS.S` of the words of a pair (R123). -/
theorem exec_fromWordsS_words (w : WordPair) (s : State) :
    exec (.fromWordsS w.lo.toNat w.hi.toNat) s =
      .next { s with result := some (.ok (.int (toSigned32 (rawOf w)))) } := by
  rw [exec_fromWordsS, pairOperand_words, Answer.map_ok]

/-! ### The statements -/

/-- Settles O5. -/
theorem toWordsWrapsAndSplits : Obligations.ToWordsWrapsAndSplits := fun v s =>
  ⟨rfl, rfl, _, _, pairCarries_split32 v, exec_toWordsU v s, exec_toWordsS v s⟩

/-- Settles O6: operands inside U16 are the words of a pair, which spells `lo + 65536*hi`; others are refused before any
joining. -/
theorem fromWordsJoinsLowWordFirst : Obligations.FromWordsJoinsLowWordFirst := by
  refine fun lo hi s => ⟨rfl, rfl, fun hlo hhi => ?_, fun hout => ?_⟩
  · obtain ⟨w, -, rfl, rfl⟩ := pairOperand_ok lo hi hlo hhi
    have hvalue : ((rawOf w).toNat : Int) = pairValue w.lo.toNat w.hi.toNat := by
      rw [pairValue, rawOf_toNat]
      norm_cast
    refine ⟨?_, ?_, signedReading_pairValue_neg_iff hlo hhi⟩
    · rw [exec_fromWordsU_words, hvalue]
    · rw [exec_fromWordsS_words, toSigned32_eq_signedReading, hvalue]
  · have hrefused : pairOperand lo hi = .refused .wordRange := pairOperand_refused lo hi hout
    rw [exec_fromWordsU, exec_fromWordsS, hrefused]
    exact ⟨rfl, rfl⟩

/-- Settles O8: joining a split pair is wrapping, which both readings then read. -/
theorem outOfRangeIntegersComeBackWrapped : Obligations.OutOfRangeIntegersComeBackWrapped := by
  refine fun v s => ⟨_, _, exec_toWordsU v s, exec_toWordsS v s, ?_, ?_⟩
  · rw [exec_fromWordsU_words, rawOf_split32, wrap32_toNat]
  · rw [exec_fromWordsS_words, rawOf_split32, toSigned32_eq_signedReading, wrap32_toNat]

/-- Settles O7: an integer comes back wrapped, which changes none in its kind's range; a pair comes back because splitting
undoes joining. -/
theorem wordCodecIsATwoSidedInverse : Obligations.WordCodecIsATwoSidedInverse := by
  refine fun s => ⟨fun v hv => ?_, fun v hv => ?_, fun lo hi => ?_, fun lo hi => ?_⟩
  · obtain ⟨lo, hi, hsplit, -, hjoin, -⟩ := outOfRangeIntegersComeBackWrapped v s
    obtain ⟨hmin, hmax⟩ : 0 ≤ v ∧ v ≤ 4294967295 := hv
    have hwrap : v % 4294967296 = v := Int.emod_eq_of_lt hmin (by omega)
    exact ⟨lo, hi, hsplit, hwrap ▸ hjoin⟩
  · obtain ⟨lo, hi, -, hsplit, -, hjoin⟩ := outOfRangeIntegersComeBackWrapped v s
    exact ⟨lo, hi, hsplit, by rw [hjoin, signedReading_emod hv]⟩
  · have hpair : split32 (rawOf { lo, hi }).toNat = { lo, hi } := split32_readRaw .unsigned32 { lo, hi }
    exact ⟨_, exec_fromWordsU_words { lo, hi } s, by rw [exec_toWordsU, hpair]⟩
  · have hpair : split32 (toSigned32 (rawOf { lo, hi })) = { lo, hi } := split32_readRaw .signed32 { lo, hi }
    exact ⟨_, exec_fromWordsS_words { lo, hi } s, by rw [exec_toWordsS, hpair]⟩

end Sys2Proof.Machine
end

section
/-! PROOFS. The typed codecs (R136 to R148) and their dispatch (R160, R161): rounding with its tie rule (R10), what each
operation answers, then the statements that do not speak of binary64, and that the pure operations know no storage (R162). -/

namespace Sys2Proof.Machine

/-! ### Rounding to an integer -/

/-- Where `ROUND_TIE` lets an exact tie go (R10). -/
def TieGoes (tie : RoundTie) (q : Rat) (n : Int) : Prop :=
  match tie with
  | .halfEven => n % 2 = 0
  | .halfAway => |q| ≤ |(n : Rat)|
  | .halfUp   => q ≤ n

/-- The integer `round` gives is nearer than half, or exactly half away in the direction of the tie rule (R10). -/
theorem roundTie_spec (tie : RoundTie) (q : Rat) :
    |q - roundTie tie q| < 1 / 2 ∨ (|q - roundTie tie q| = 1 / 2 ∧ TieGoes tie q (roundTie tie q)) := by
  have hfloor : (q.floor : Rat) ≤ q := Int.floor_le q
  have hnext : q < (q.floor : Rat) + 1 := Int.lt_floor_add_one q
  simp only [roundTie]
  rcases lt_trichotomy (q - q.floor) (1 / 2) with hbelow | htie | habove
  · rw [if_pos hbelow]
    exact .inl (abs_lt.2 ⟨by linarith, by linarith⟩)
  · have hdown : |q - q.floor| = 1 / 2 := by rw [htie, abs_of_pos one_half_pos]
    have hup : |q - ((q.floor + 1 : Int) : Rat)| = 1 / 2 := by push_cast; rw [abs_of_nonpos] <;> linarith
    rw [if_neg htie.not_lt, if_neg htie.not_gt]
    right
    cases tie with
    | halfEven =>
      dsimp only [TieGoes]
      split_ifs with heven
      · exact ⟨hdown, heven⟩
      · exact ⟨hup, by omega⟩
    | halfAway =>
      dsimp only [TieGoes]
      split_ifs with hneg
      · exact ⟨hdown, by rw [abs_of_neg hneg, abs_of_neg] <;> linarith⟩
      · have hpos : 0 ≤ q := not_lt.1 hneg
        exact ⟨hup, by rw [abs_of_nonneg hpos, abs_of_nonneg] <;> push_cast <;> linarith⟩
    | halfUp => exact ⟨hup, by dsimp only [TieGoes]; push_cast; linarith⟩
  · rw [if_neg habove.not_gt, if_pos habove]
    push_cast
    exact .inl (abs_lt.2 ⟨by linarith, by linarith⟩)

/-- `round` moves a number by at most half (R10). -/
theorem abs_sub_roundTie_le (tie : RoundTie) (q : Rat) : |q - roundTie tie q| ≤ 1 / 2 :=
  (roundTie_spec tie q).elim le_of_lt fun h => h.1.le

/-- An exact tie goes by `ROUND_TIE` (R10). -/
theorem tieGoes_roundTie {tie : RoundTie} {q : Rat} (h : |q - roundTie tie q| = 1 / 2) :
    TieGoes tie q (roundTie tie q) :=
  (roundTie_spec tie q).elim (fun hlt => absurd h hlt.ne) And.right

/-- `round` leaves an integer alone (R10). -/
@[simp] theorem roundTie_intCast (tie : RoundTie) (n : Int) : roundTie tie n = n := by
  have hnear := abs_sub_roundTie_le tie n
  have hclose : |n - roundTie tie n| < 1 := by
    have : |(n : Rat) - roundTie tie n| < 1 := by linarith
    exact_mod_cast this
  have := Int.abs_lt_one_iff.1 hclose
  omega

/-! ### The value a pair spells -/

/-- The raw value of two words, as the integer the statements write (R87). -/
theorem rawOf_toNat_eq_pairValue (w : WordPair) : ((rawOf w).toNat : Int) = pairValue w.lo.toNat w.hi.toNat := by
  rw [pairValue, rawOf_toNat]
  norm_cast

/-- A value read by its kind is the reading of its integer (R10, R87). -/
theorem readRaw_eq_readingOf (kind : Kind) (u : Raw) : readRaw kind u = readingOf kind u.toNat := by
  cases kind with
  | unsigned32 => rfl
  | signed32 => exact toSigned32_eq_signedReading u

/-- Reading a wrapped integer by its kind gives it back where it lies in the kind's range (R9, R10). -/
theorem readRaw_wrap32 {kind : Kind} {n : Int} (h : inKind kind n) : readRaw kind (wrap32 n) = n := by
  rw [readRaw_eq_readingOf, wrap32_toNat]
  cases kind with
  | unsigned32 =>
    obtain ⟨hmin, hmax⟩ : 0 ≤ n ∧ n ≤ 4294967295 := h
    exact Int.emod_eq_of_lt hmin (by omega)
  | signed32 => exact signedReading_emod h

/-! ### What the operations answer -/

/-- An operation that decodes two words answers with what the decoder makes of the pair (R95). -/
theorem replyDecoded_words (s : State) (w : WordPair) (dec : WordPair → Answer Value) :
    replyDecoded s w.lo.toNat w.hi.toNat dec = .next { s with result := some ((dec w).map .value) } := by
  rw [replyDecoded, pairOperand_words, State.reply_eq_next, Answer.andThen_ok]

/-- Operands inside U16 are two words, which spell the pair's integer (R87, R95). -/
theorem exists_words_of_inU16 {lo hi : Int} (hlo : inU16 lo) (hhi : inU16 hi) :
    ∃ w : WordPair, (w.lo.toNat : Int) = lo ∧ (w.hi.toNat : Int) = hi ∧ ((rawOf w).toNat : Int) = pairValue lo hi := by
  obtain ⟨w, -, rfl, rfl⟩ := pairOperand_ok lo hi hlo hhi
  exact ⟨w, rfl, rfl, rawOf_toNat_eq_pairValue w⟩

/-- An operation that decodes refuses an operand outside U16, whatever its decoder (R95, R214). -/
theorem replyDecoded_refused {lo hi : Int} (h : ¬(inU16 lo ∧ inU16 hi)) (s : State) (dec : WordPair → Answer Value) :
    replyDecoded s lo hi dec = .next { s with result := some (.refused .wordRange) } := by
  rw [replyDecoded, pairOperand_refused lo hi h, State.reply_eq_next]
  rfl

/-- An operation that encodes answers with the words of the pair it makes. -/
theorem replyWords_eq_next (s : State) (ans : Answer WordPair) :
    replyWords s ans = .next { s with result := some (ans.map pairResult) } :=
  State.reply_eq_next s _

/-- `DEC.SCALED` for a positive factor under exact numerics (R140). -/
theorem decodeScaled_exact {k : Rat} (hk : 0 < k) (kind : Kind) (w : WordPair) :
    decodeScaled .exact k kind w = .ok (.phys (.finite (readRaw kind (rawOf w) / k))) :=
  if_pos hk

/-- `ENC.SCALED` of a number for a positive factor under exact numerics (R141). -/
theorem encodeScaled_exact {k : Rat} (hk : 0 < k) (tie : RoundTie) (kind : Kind) (q : Rat) :
    encodeScaled .exact tie k kind (.finite q) = .ok (split32 (roundTie tie (q * k))) := by
  rw [encodeScaled, exactCount, if_pos hk]

/-- `DEC.SCALED` for a factor outside R140's domain gives some number under either numerics (log 10). -/
theorem decodeScaled_of_nonpos {k : Rat} (hk : k ≤ 0) (numerics : Numerics) (kind : Kind) (w : WordPair) :
    decodeScaled numerics k kind w = .ok (.phys (.finite (Config.physOfNonPositiveFactor k (readRaw kind (rawOf w))))) :=
  if_neg hk.not_gt

/-- `DEC.SCALED` refuses an operand outside U16, whatever the factor, the kind and the numerics (R95, R140). -/
theorem exec_decScaled_refused {lo hi : Int} (h : ¬(inU16 lo ∧ inU16 hi)) (k : Rat) (kind : Kind) (s : State) :
    exec (.decScaled k kind lo hi) s = .next { s with result := some (.refused .wordRange) } :=
  replyDecoded_refused h s _

/-- `DEC.SCALED` of two words turns on the decoder alone (R140). -/
theorem exec_decScaled_words (k : Rat) (kind : Kind) (w : WordPair) (s : State) :
    exec (.decScaled k kind w.lo.toNat w.hi.toNat) s =
      .next { s with result := some ((decodeScaled s.cfg.numerics k kind w).map .value) } :=
  replyDecoded_words s w _

/-- `ENC.SCALED` turns on the encoder alone (R141). -/
theorem exec_encScaled (k : Rat) (kind : Kind) (p : Phys) (s : State) :
    exec (.encScaled k kind p) s =
      .next { s with result := some ((encodeScaled s.cfg.numerics s.cfg.roundTie k kind p).map pairResult) } :=
  replyWords_eq_next s _

/-- `DECODE` of two words turns on the dispatch alone (R160). -/
theorem exec_decode_words (r : Register) (w : WordPair) (s : State) :
    exec (.decode r w.lo.toNat w.hi.toNat) s =
      .next { s with result := some ((decodeBy s.cfg r.codec w).map .value) } :=
  replyDecoded_words s w _

/-- `ENCODE` turns on the dispatch alone (R161). -/
theorem exec_encode (r : Register) (v : Value) (s : State) :
    exec (.encode r v) s = .next { s with result := some ((encodeBy s.cfg r.codec v).map pairResult) } :=
  replyWords_eq_next s _

/-! ### The raw codecs -/

/-- Settles O9. -/
theorem rawUnsignedCodecPassesTheInteger : Obligations.RawUnsignedCodecPassesTheInteger := by
  refine fun s => ⟨fun lo hi => ⟨rfl, fun hlo hhi => ?_, fun hout => replyDecoded_refused hout s _⟩,
    fun n => ⟨rfl, _, _, pairCarries_split32 n, replyWords_eq_next s _⟩⟩
  obtain ⟨w, rfl, rfl, hvalue⟩ := exists_words_of_inU16 hlo hhi
  rw [← hvalue]
  exact replyDecoded_words s w _

/-- Settles O10. -/
theorem rawSignedCodecReadsTwosComplement : Obligations.RawSignedCodecReadsTwosComplement := by
  refine fun s => ⟨fun lo hi => ⟨rfl, fun hlo hhi => ?_, fun hout => replyDecoded_refused hout s _⟩,
    fun n => ⟨rfl, _, _, pairCarries_split32 n, replyWords_eq_next s _⟩⟩
  obtain ⟨w, rfl, rfl, hvalue⟩ := exists_words_of_inU16 hlo hhi
  rw [← hvalue, ← toSigned32_eq_signedReading]
  exact replyDecoded_words s w _

/-! ### The scaled codec under exact numerics -/

/-- Settles O11. -/
theorem scaledDecodeDividesByTheFactor : Obligations.ScaledDecodeDividesByTheFactor := by
  refine fun k kind lo hi s hk hexact => ⟨rfl, fun hlo hhi => ?_, fun hout => exec_decScaled_refused hout k kind s⟩
  obtain ⟨w, rfl, rfl, hvalue⟩ := exists_words_of_inU16 hlo hhi
  rw [exec_decScaled_words, hexact, decodeScaled_exact hk, readRaw_eq_readingOf, hvalue, Answer.map_ok]

/-- Settles O12: the integer carried is `round(q * k)`. -/
theorem scaledEncodeRoundsToNearest : Obligations.ScaledEncodeRoundsToNearest := by
  refine fun k kind q s hk hexact => ⟨rfl, roundTie s.cfg.roundTie (q * k), _, _, pairCarries_split32 _, ?_,
    abs_sub_roundTie_le _ _, tieGoes_roundTie⟩
  rw [exec_encScaled, hexact, encodeScaled_exact hk]
  rfl

/-- Settles O15. -/
theorem nonPositiveFactorStillCompletes : Obligations.NonPositiveFactorStillCompletes := by
  refine fun k kind s hk => ⟨fun lo hi hlo hhi => ?_, fun lo hi hout => exec_decScaled_refused hout k kind s,
    fun q hq => ?_⟩
  · obtain ⟨w, rfl, rfl, -⟩ := exists_words_of_inU16 hlo hhi
    exact ⟨_, by rw [exec_decScaled_words, decodeScaled_of_nonpos hk, Answer.map_ok]⟩
  · rw [exec_encScaled]
    cases hnum : s.cfg.numerics with
    | exact => exact ⟨_, _, rfl⟩
    | binary64 =>
      obtain ⟨x, hx⟩ := hq hnum
      simp only [encodeScaled, hx]
      exact ⟨_, _, rfl⟩

/-! ### The mode codec -/

/-- Settles O16: the branches of R145 in order, on the integer the pair spells. -/
theorem modeDecodeAcceptsFourValues : Obligations.ModeDecodeAcceptsFourValues := by
  refine fun lo hi s => ⟨rfl, fun hlo hhi => ?_, fun hout => replyDecoded_refused hout s _⟩
  obtain ⟨w, rfl, rfl, hvalue⟩ := exists_words_of_inU16 hlo hhi
  have hexec : exec (.decMode w.lo.toNat w.hi.toNat) s =
      .next { s with result := some ((decodeMode w).map .value) } := replyDecoded_words s w _
  have hraw : ∀ n : Nat, pairValue w.lo.toNat w.hi.toNat = n ↔ (rawOf w).toNat = n := fun n => by
    rw [← hvalue, Nat.cast_inj]
  rw [hexec]
  refine ⟨fun h => ?_, fun h => ?_, fun h => ?_, fun h => ?_, fun h0 h1 h2 h11 => ⟨rawOf w, hvalue, ?_⟩⟩
  · simp [decodeMode, (hraw 0).1 h]
  · simp [decodeMode, (hraw 1).1 h]
  · simp [decodeMode, (hraw 2).1 h]
  · simp [decodeMode, (hraw 11).1 h]
  · simp [decodeMode, mt (hraw 0).2 h0, mt (hraw 1).2 h1, mt (hraw 2).2 h2, mt (hraw 11).2 h11]

/-- `DEC.MODE` undoes `ENC.MODE` (R145, R146). -/
theorem decodeMode_split32_modeNumber (m : Mode) : decodeMode (split32 (modeNumber m)) = .ok (.mode m) := by
  cases m <;> rfl

/-- Settles O17: each row by evaluating the encoder. -/
theorem modeEncodeGivesItsNumber : Obligations.ModeEncodeGivesItsNumber := fun _ =>
  ⟨fun _ => rfl, rfl, rfl, rfl, rfl⟩

/-! ### The flag-set codec -/

/-- The 32 positions of a flag set are the bits of its pair, low word first (R148). -/
theorem getElem?_eq_getLsbD_split32 {b : List Bool} (hb : b.length = 32) {i : Nat} (hi : i < 32) :
    b[i]? = some (((split32 (implodeBits b)).hi ++ (split32 (implodeBits b)).lo).getLsbD i) := by
  rw [getLsbD_split32 _ hi, testBit_implodeBits, List.getElem?_eq_getElem (hb ▸ hi), Option.getD_some]

/-- Settles O18. -/
theorem flagSetCodecMapsPositionsToBits : Obligations.FlagSetCodecMapsPositionsToBits := by
  refine fun s => ⟨fun lo hi => ⟨rfl, fun hlo hhi => ?_, fun hout => replyDecoded_refused hout s _⟩,
    fun b => ⟨rfl, fun hb => ⟨_, _, exec_encBits hb s, fun i hi => ?_, fun i hi => ?_⟩, fun hb => ?_⟩⟩
  · obtain ⟨w, rfl, rfl, hvalue⟩ := exists_words_of_inU16 hlo hhi
    refine ⟨_, exec_decBits w.lo w.hi s, explodeBits_length _ 32, fun i hi => ?_⟩
    rw [explodeBits_get _ _ i hi, ← hvalue, Nat.testBit_eq_decide_div_mod_eq]
    norm_cast
  · rw [getElem?_eq_getLsbD_split32 hb (by omega), BitVec.getLsbD_append, if_pos hi]
  · rw [getElem?_eq_getLsbD_split32 hb (by omega), BitVec.getLsbD_append, if_neg (by omega), Nat.add_sub_cancel]
  · exact (replyWords_eq_next s _).trans (by rw [encodeBits, if_neg hb]; rfl)

/-! ### The dispatch -/

/-- Settles O19. -/
theorem decodeDispatchesOnTheTag : Obligations.DecodeDispatchesOnTheTag := by
  rintro ⟨num, name, codec⟩ lo hi s
  refine ⟨rfl, ⟨_, State.reply_eq_next s _⟩, ?_⟩
  cases codec <;> rfl

/-- Settles O20: both sides evaluate at each pair of tags. -/
theorem encodeDispatchesOnTheTag : Obligations.EncodeDispatchesOnTheTag := by
  rintro ⟨num, name, codec⟩ v s
  refine ⟨rfl, ⟨_, exec_encode _ v s⟩, ?_⟩
  cases codec <;> cases v <;> rfl

/-! ### Round trips -/

/-- Decode after encode gives an exactly represented value back (R163). -/
theorem decodeBy_encodeBy {cfg : Config} {codec : Codec} {v : Value} (h : representable codec v) :
    ∃ w, encodeBy cfg codec v = .ok w ∧ decodeBy cfg codec w = .ok v := by
  cases codec with
  | rawUnsigned =>
    cases v with
    | uint n =>
      refine ⟨split32 n, rfl, ?_⟩
      have hn : inKind .unsigned32 n := h
      have hback : readRaw .unsigned32 (rawOf (split32 n)) = n := by rw [rawOf_split32, readRaw_wrap32 hn]
      exact congrArg (fun n => Answer.ok (Value.uint n)) hback
    | _ => cases h
  | rawSigned =>
    cases v with
    | sint n =>
      refine ⟨split32 n, rfl, ?_⟩
      have hn : inKind .signed32 n := h
      have hback : readRaw .signed32 (rawOf (split32 n)) = n := by rw [rawOf_split32, readRaw_wrap32 hn]
      exact congrArg (fun n => Answer.ok (Value.sint n)) hback
    | _ => cases h
  | scaled k kind => cases h
  | mode =>
    cases v with
    | mode m => exact ⟨_, rfl, decodeMode_split32_modeNumber m⟩
    | _ => cases h
  | bitfield =>
    cases v with
    | bits b =>
      have hb : b.length = 32 := h
      refine ⟨split32 (implodeBits b), if_pos hb, ?_⟩
      have hraw : (rawOf (split32 (implodeBits b))).toNat = implodeBits b := by
        have hwrap := wrap32_toNat (implodeBits b)
        have hlt : implodeBits b < 2 ^ 32 := hb ▸ implodeBits_lt b
        rw [rawOf_split32]
        omega
      rw [decodeBy, decodeBits, hraw, ← hb, explodeBits_implodeBits]
    | _ => cases h

/-- Encode after decode gives the pair back: the raw integer survives every codec (R163). -/
theorem encodeBy_decodeBy {cfg : Config} {codec : Codec} (hwf : codec.wellFormed = true)
    (hexact : ∀ k kind, codec = .scaled k kind → cfg.numerics = .exact) {w : WordPair}
    (hmode : codec = .mode → ∃ m, w = split32 (modeNumber m)) :
    ∃ v, decodeBy cfg codec w = .ok v ∧ encodeBy cfg codec v = .ok w := by
  cases codec with
  | rawUnsigned => exact ⟨_, rfl, congrArg Answer.ok (split32_readRaw .unsigned32 w)⟩
  | rawSigned => exact ⟨_, rfl, congrArg Answer.ok (split32_readRaw .signed32 w)⟩
  | scaled k kind =>
    have hk : 0 < k := of_decide_eq_true hwf
    refine ⟨_, by rw [decodeBy, hexact k kind rfl, decodeScaled_exact hk], ?_⟩
    rw [encodeBy, hexact k kind rfl, encodeScaled_exact hk, div_mul_cancel₀ _ hk.ne', roundTie_intCast, split32_readRaw]
  | mode =>
    obtain ⟨m, rfl⟩ := hmode rfl
    exact ⟨_, decodeMode_split32_modeNumber m, rfl⟩
  | bitfield =>
    refine ⟨_, rfl, ?_⟩
    rw [encodeBy, encodeBits, if_pos (explodeBits_length _ 32), implodeBits_explodeBits (rawOf w).isLt]
    exact congrArg Answer.ok (split32_readRaw .unsigned32 w)

/-- The pairs that decode as a mode are the four that a mode encodes to (R84, R145). -/
theorem exists_mode_of_words {lo hi : Word} (h : hi = 0 ∧ (lo = 0 ∨ lo = 1 ∨ lo = 2 ∨ lo = 11)) :
    ∃ m, ({ lo, hi } : WordPair) = split32 (modeNumber m) := by
  obtain ⟨rfl, rfl | rfl | rfl | rfl⟩ := h
  · exact ⟨.passive, rfl⟩
  · exact ⟨.velocity, rfl⟩
  · exact ⟨.position, rfl⟩
  · exact ⟨.stop, rfl⟩

/-- Settles O21. -/
theorem codecRoundTrips : Obligations.CodecRoundTrips := by
  refine ⟨fun r v s h => ?_, fun r lo hi s hwf hexact hmode => ?_⟩
  · obtain ⟨w, henc, hdec⟩ := decodeBy_encodeBy (cfg := s.cfg) h
    refine ⟨w.lo, w.hi, ?_, ?_⟩
    · rw [exec_encode, henc]
      rfl
    · rw [exec_decode_words, hdec, Answer.map_ok]
  · obtain ⟨v, hdec, henc⟩ := encodeBy_decodeBy hwf hexact fun hc => exists_mode_of_words (hmode hc)
    refine ⟨v, ?_, ?_⟩
    · rw [exec_decode_words r { lo, hi }, hdec, Answer.map_ok]
    · rw [exec_encode, henc]
      rfl

/-! ### Operations that touch no storage -/

/-- An operation of families 0x0 to 0x3 answers by its operands and the configuration, whatever the storage (R162, R220). -/
theorem exec_eq_reply_of_touchesNoStorage {i : Instr} (h : touchesNoStorage i = true) :
    ∃ answer : Config → Answer Result, ∀ s, exec i s = s.reply (answer s.cfg) := by
  cases i with
  | explode x n =>
    by_cases hd : 0 ≤ n ∧ 0 ≤ x ∧ x < 2 ^ n.toNat
    · exact ⟨fun _ => _, fun _ => if_pos hd⟩
    · exact ⟨fun _ => _, fun _ => if_neg hd⟩
  | implode | toWordsU | toWordsS | fromWordsU | fromWordsS | decRawU | encRawU | decRawS | encRawS | decMode | encMode
  | decBits | encBits | addr => exact ⟨fun _ => _, fun _ => rfl⟩
  | decScaled k kind lo hi =>
    exact ⟨fun cfg => ((pairOperand lo hi).andThen (decodeScaled cfg.numerics k kind)).map .value, fun _ => rfl⟩
  | encScaled k kind p =>
    exact ⟨fun cfg => (encodeScaled cfg.numerics cfg.roundTie k kind p).map pairResult, fun _ => rfl⟩
  | decode r lo hi => exact ⟨fun cfg => ((pairOperand lo hi).andThen (decodeBy cfg r.codec)).map .value, fun _ => rfl⟩
  | encode r v => exact ⟨fun cfg => (encodeBy cfg r.codec v).map pairResult, fun _ => rfl⟩
  | resolveName name => exact ⟨fun cfg => (resolve cfg.table (.name name)).map .register, fun _ => rfl⟩
  | resolveAddr a => exact ⟨fun cfg => (resolve cfg.table (.addr a)).map .register, fun _ => rfl⟩
  | resolveNum n => exact ⟨fun cfg => (resolve cfg.table (.num n)).map .register, fun _ => rfl⟩
  | readWords | writeWords | csrReadName | csrWriteName | csrReadAddr | csrWriteAddr | csrReadNum | csrWriteNum =>
    simp [touchesNoStorage, Instr.opcode] at h

/-- Settles O45. -/
theorem pureOperationsNeitherReadNorWriteStorage : Obligations.PureOperationsNeitherReadNorWriteStorage := by
  intro i s s' hpure hcfg
  obtain ⟨answer, hanswer⟩ := exec_eq_reply_of_touchesNoStorage hpure
  refine ⟨answer s.cfg, ?_, ?_⟩
  · rw [hanswer, State.reply_eq_next]
  · rw [hanswer, State.reply_eq_next, hcfg]

end Sys2Proof.Machine
end

section
/-! PROOFS. Rounding to a double (R149): powers of two, the unit in the last place, and how far the rounded value lies from
the rational. The format is PRESUMED (log 11). -/

namespace Sys2Proof.Machine

/-! ### Powers of two -/

theorem pow2_eq_zpow (e : Int) : pow2 e = (2 : Rat) ^ e := by
  cases e with
  | ofNat k => simp [pow2]
  | negSucc k => simp [pow2, zpow_negSucc]

theorem pow2_pos (e : Int) : 0 < pow2 e := by
  rw [pow2_eq_zpow]
  positivity

theorem pow2_add (a b : Int) : pow2 (a + b) = pow2 a * pow2 b := by
  simp only [pow2_eq_zpow, zpow_add₀ (two_ne_zero' Rat)]

theorem pow2_natCast (n : Nat) : pow2 n = 2 ^ n := by
  rw [pow2_eq_zpow, zpow_natCast]

theorem pow2_le_pow2 {a b : Int} (h : a ≤ b) : pow2 a ≤ pow2 b := by
  simpa only [pow2_eq_zpow] using zpow_le_zpow_right₀ one_le_two h

theorem pow2_lt_pow2 {a b : Int} (h : a < b) : pow2 a < pow2 b := by
  simpa only [pow2_eq_zpow] using zpow_lt_zpow_right₀ one_lt_two h

/-- One step down in the exponent is half. -/
theorem pow2_sub_one (e : Int) : pow2 (e - 1) = pow2 e / 2 := by
  rw [pow2_eq_zpow, pow2_eq_zpow, zpow_sub_one₀ two_ne_zero, div_eq_mul_inv]

/-- The logarithm of a positive natural brackets it by two powers of two. -/
theorem pow2_log2_bounds {n : Nat} (hn : n ≠ 0) : pow2 n.log2 ≤ n ∧ (n : Rat) < 2 * pow2 n.log2 := by
  rw [pow2_natCast]
  have hlow : 2 ^ n.log2 ≤ n := Nat.log2_self_le hn
  have hhigh : n < 2 ^ (n.log2 + 1) := Nat.lt_log2_self
  exact ⟨by exact_mod_cast hlow, by rw [← pow_succ']; exact_mod_cast hhigh⟩

/-- The binary exponent brackets a rational by two neighbouring powers of two. -/
theorem binaryExponent_bounds {q : Rat} (hq : q ≠ 0) :
    pow2 (binaryExponent q) ≤ |q| ∧ |q| < pow2 (binaryExponent q + 1) := by
  obtain ⟨hnumLow, hnumHigh⟩ := pow2_log2_bounds (Int.natAbs_ne_zero.2 (Rat.num_ne_zero.2 hq))
  obtain ⟨hdenLow, hdenHigh⟩ := pow2_log2_bounds q.den_ne_zero
  have hfraction : |q| * q.den = q.num.natAbs := by
    rw [Nat.cast_natAbs, Int.cast_abs, ← Rat.mul_den_eq_num, abs_mul, Nat.abs_cast]
  have hden : (0 : Rat) < q.den := Nat.cast_pos.2 q.den_pos
  set estimate : Int := (Nat.log2 q.num.natAbs : Int) - (Nat.log2 q.den : Int) with hestimate
  have hlogs : pow2 q.num.natAbs.log2 = pow2 estimate * pow2 q.den.log2 := by
    rw [← pow2_add, hestimate, sub_add_cancel]
  rw [hlogs] at hnumLow hnumHigh
  have hpos := pow2_pos estimate
  have hlow : pow2 (estimate - 1) ≤ |q| := by
    rw [pow2_sub_one]
    refine le_of_mul_le_mul_right ?_ hden
    nlinarith
  have hhigh : |q| < pow2 (estimate + 1) := by
    rw [pow2_add, show pow2 1 = 2 by rw [pow2_eq_zpow, zpow_one]]
    refine lt_of_mul_lt_mul_right ?_ hden.le
    nlinarith
  simp only [binaryExponent, ← hestimate]
  split_ifs with hbelow
  · exact ⟨hlow, by rwa [sub_add_cancel]⟩
  · exact ⟨not_lt.1 hbelow, hhigh⟩

/-! ### The unit in the last place and the significand -/

/-- The exponent of the unit in the last place is this less 52: no smaller than that of the smallest normal double. -/
def doubleExponent (q : Rat) : Int := max (binaryExponent q) (-1022)

/-- The unit in the last place of the doubles next to `q`. -/
def unitInLastPlace (q : Rat) : Rat := pow2 (doubleExponent q - 52)

/-- The integer multiple of that unit to which `toDouble` rounds. -/
def significand (q : Rat) : Int := roundTie .halfEven (q / unitInLastPlace q)

/-- The midpoint between the largest double and `2^1024`, from which on a rational rounds to an infinity. -/
def overflowBound : Rat := pow2 1024 - pow2 970

theorem unitInLastPlace_pos (q : Rat) : 0 < unitInLastPlace q := pow2_pos _

/-- Half a unit in the last place. -/
theorem pow2_sub_53_eq (q : Rat) : pow2 (doubleExponent q - 53) = unitInLastPlace q / 2 := by
  rw [unitInLastPlace, ← pow2_sub_one]
  ring_nf

/-- The largest power of two a significand of 53 bits can reach. -/
theorem pow2_succ_doubleExponent (q : Rat) : pow2 (doubleExponent q + 1) = 2 ^ 53 * unitInLastPlace q := by
  rw [unitInLastPlace, ← pow2_natCast, ← pow2_add]
  push_cast
  ring_nf

/-- The multiple of the unit that `toDouble` takes differs from `q` by the unit times what `round` moves the quotient. -/
theorem abs_significand_mul_sub (q : Rat) :
    |significand q * unitInLastPlace q - q| =
      |q / unitInLastPlace q - significand q| * unitInLastPlace q := by
  have hpos := unitInLastPlace_pos q
  rw [← abs_of_pos hpos, ← abs_mul, abs_of_pos hpos, sub_mul, div_mul_cancel₀ _ hpos.ne', abs_sub_comm]

theorem abs_significand_mul_sub_le (q : Rat) :
    |significand q * unitInLastPlace q - q| ≤ pow2 (doubleExponent q - 53) := by
  rw [abs_significand_mul_sub, pow2_sub_53_eq]
  have hnear : |q / unitInLastPlace q - significand q| ≤ 1 / 2 := abs_sub_roundTie_le _ _
  have hpos := unitInLastPlace_pos q
  nlinarith

/-- At exactly half a unit the multiple is even. -/
theorem significand_even {q : Rat} (h : |significand q * unitInLastPlace q - q| = pow2 (doubleExponent q - 53)) :
    significand q % 2 = 0 := by
  rw [abs_significand_mul_sub, pow2_sub_53_eq] at h
  have htie : |q / unitInLastPlace q - significand q| = 1 / 2 :=
    mul_right_cancel₀ (unitInLastPlace_pos q).ne' (by linarith)
  exact tieGoes_roundTie (tie := .halfEven) htie

/-- Rounding to even reaches an even bound exactly from half below it on. -/
theorem le_abs_roundTie_halfEven_iff {N : Int} (hN : N % 2 = 0) (x : Rat) :
    N ≤ |roundTie .halfEven x| ↔ N - 1 / 2 ≤ |x| := by
  have hdist : |(|x| - |(roundTie .halfEven x : Rat)|)| ≤ |x - roundTie .halfEven x| := abs_abs_sub_abs_le _ _
  have hnear := abs_sub_roundTie_le .halfEven x
  obtain ⟨hlow, hhigh⟩ := abs_le.1 (hdist.trans hnear)
  constructor
  · intro h
    have : (N : Rat) ≤ |(roundTie .halfEven x : Rat)| := by exact_mod_cast h
    linarith
  · intro h
    by_contra hlt
    have hle : |roundTie .halfEven x| ≤ N - 1 := by omega
    have hle' : |(roundTie .halfEven x : Rat)| ≤ N - 1 := by exact_mod_cast hle
    have htie : |x - roundTie .halfEven x| = 1 / 2 :=
      le_antisymm hnear (le_trans (by rw [le_abs]; left; linarith) hdist)
    have heven : roundTie .halfEven x % 2 = 0 := tieGoes_roundTie htie
    have hlast : (N - 1 : Int) ≤ |roundTie .halfEven x| := by
      have : ((N - 1 : Int) : Rat) ≤ |(roundTie .halfEven x : Rat)| := by push_cast; linarith
      exact_mod_cast this
    rcases abs_cases (roundTie .halfEven x) with ⟨habs, -⟩ | ⟨habs, -⟩ <;> omega

/-- Below twice the power of two at its exponent, a rational is less than `2^53` units. -/
theorem abs_lt_units {q : Rat} (hq : q ≠ 0) : |q| < 2 ^ 53 * unitInLastPlace q := by
  rw [← pow2_succ_doubleExponent]
  exact (binaryExponent_bounds hq).2.trans_le (pow2_le_pow2 (add_le_add_left (le_max_left _ _) 1))

/-- A significand has at most 53 bits, the next power of two included. -/
theorem abs_significand_le {q : Rat} (hq : q ≠ 0) : |significand q| ≤ 2 ^ 53 := by
  have hpos := unitInLastPlace_pos q
  have hquotient : |q / unitInLastPlace q| < 2 ^ 53 := by
    rw [abs_div, abs_of_pos hpos, div_lt_iff₀ hpos]
    exact abs_lt_units hq
  have hnear : |q / unitInLastPlace q - significand q| ≤ 1 / 2 := abs_sub_roundTie_le _ _
  have hdist : |(significand q : Rat)| - |q / unitInLastPlace q| ≤ |q / unitInLastPlace q - significand q| :=
    (abs_sub_abs_le_abs_sub _ _).trans_eq (abs_sub_comm _ _)
  have hlt : |(significand q : Rat)| < 2 ^ 53 + 1 := by linarith
  have hlt' : |significand q| < 2 ^ 53 + 1 := by exact_mod_cast hlt
  exact Int.lt_add_one_iff.1 hlt'

/-- Below `2^1023` a rational neither rounds to `2^1024` nor reaches the overflow bound. -/
theorem not_overflow_of_exponent_lt {q : Rat} (hq : q ≠ 0) (hexp : binaryExponent q < 1023) :
    |significand q| * unitInLastPlace q < pow2 1024 ∧ |q| < overflowBound := by
  have htop : pow2 1023 = pow2 1024 / 2 := pow2_sub_one 1024
  have hhalf : pow2 970 < pow2 1023 := pow2_lt_pow2 (by norm_num)
  have hlast : 2 ^ 53 * unitInLastPlace q ≤ pow2 1023 := by
    rw [← pow2_succ_doubleExponent]
    exact pow2_le_pow2 (by rw [doubleExponent]; omega)
  have hsig : ((|significand q| : Int) : Rat) ≤ 2 ^ 53 := by exact_mod_cast abs_significand_le hq
  constructor
  · calc |significand q| * unitInLastPlace q ≤ 2 ^ 53 * unitInLastPlace q :=
          mul_le_mul_of_nonneg_right hsig (unitInLastPlace_pos q).le
      _ < pow2 1024 := by linarith [pow2_pos 1023]
  · rw [overflowBound]
    linarith [abs_lt_units hq]

/-- In the last binade the overflow bound is half a unit below `2^53` units, an even bound. -/
theorem overflow_iff_of_exponent_eq {q : Rat} (hexp : binaryExponent q = 1023) :
    pow2 1024 ≤ |significand q| * unitInLastPlace q ↔ overflowBound ≤ |q| := by
  have hpos := unitInLastPlace_pos q
  have hdouble : doubleExponent q = 1023 := by rw [doubleExponent, hexp]; rfl
  have hunit : pow2 1024 = 2 ^ 53 * unitInLastPlace q := by rw [← pow2_succ_doubleExponent, hdouble]; rfl
  have hhalf : pow2 970 = unitInLastPlace q / 2 := by rw [← pow2_sub_53_eq, hdouble]; rfl
  have heven := le_abs_roundTie_halfEven_iff (N := 2 ^ 53) (by norm_num) (q / unitInLastPlace q)
  rw [abs_div, abs_of_pos hpos, le_div_iff₀ hpos] at heven
  have hsig : pow2 1024 ≤ |significand q| * unitInLastPlace q ↔ (2 : Int) ^ 53 ≤ |significand q| := by
    rw [hunit, mul_le_mul_iff_of_pos_right hpos]
    exact_mod_cast Iff.rfl
  rw [hsig, significand, heven, overflowBound, hunit, hhalf]
  push_cast
  ring_nf

/-- From `2^1024` on a rational stays there when rounded. -/
theorem overflow_of_exponent_gt {q : Rat} (hq : q ≠ 0) (hexp : 1023 < binaryExponent q) :
    pow2 1024 ≤ |significand q| * unitInLastPlace q ∧ overflowBound ≤ |q| := by
  have hpos := unitInLastPlace_pos q
  have hlow := (binaryExponent_bounds hq).1
  have hreach : pow2 1024 ≤ pow2 (binaryExponent q) := pow2_le_pow2 (by omega)
  have hunit : pow2 (binaryExponent q) = 2 ^ 52 * unitInLastPlace q := by
    have hdouble : doubleExponent q = binaryExponent q := max_eq_left (by omega)
    rw [unitInLastPlace, hdouble, ← pow2_natCast, ← pow2_add]
    push_cast
    ring_nf
  have hsig : (2 : Int) ^ 52 ≤ |significand q| := by
    refine (le_abs_roundTie_halfEven_iff (by norm_num) _).2 ?_
    rw [abs_div, abs_of_pos hpos, le_div_iff₀ hpos]
    push_cast
    linarith
  constructor
  · calc pow2 1024 ≤ 2 ^ 52 * unitInLastPlace q := hunit ▸ hreach
      _ ≤ |significand q| * unitInLastPlace q := mul_le_mul_of_nonneg_right (by exact_mod_cast hsig) hpos.le
  · rw [overflowBound]
    linarith [pow2_pos 970]

/-- The multiple of the unit reaches `2^1024` exactly for a rational from the overflow bound on. -/
theorem overflow_iff {q : Rat} (hq : q ≠ 0) :
    pow2 1024 ≤ |significand q * unitInLastPlace q| ↔ overflowBound ≤ |q| := by
  rw [abs_mul, abs_of_pos (unitInLastPlace_pos q), ← Int.cast_abs]
  rcases lt_trichotomy (binaryExponent q) 1023 with hsmall | hlast | hlarge
  · obtain ⟨hsig, hbound⟩ := not_overflow_of_exponent_lt hq hsmall
    exact iff_of_false hsig.not_ge hbound.not_ge
  · exact overflow_iff_of_exponent_eq hlast
  · obtain ⟨hsig, hbound⟩ := overflow_of_exponent_gt hq hlarge
    exact iff_of_true hsig hbound

/-! ### The double of a rational -/

theorem overflowBound_pos : 0 < overflowBound :=
  sub_pos.2 (pow2_lt_pow2 (by norm_num))

theorem significand_zero : significand 0 = 0 := by
  rw [significand, zero_div]
  exact_mod_cast roundTie_intCast .halfEven 0

/-- What `toDouble` gives: an infinity from the overflow bound on, below it a multiple of the unit in the last place. -/
theorem toDouble_eq (q : Rat) :
    toDouble q =
      if overflowBound ≤ |q| then (if 0 < q then .posInf else .negInf)
      else .finite (significand q * unitInLastPlace q) := by
  by_cases hq : q = 0
  · rw [hq, if_neg (by rw [abs_zero]; exact overflowBound_pos.not_ge), significand_zero, Int.cast_zero, zero_mul]
    rfl
  · rw [← ite_congr (propext (overflow_iff hq)) (fun _ => rfl) (fun _ => rfl)]
    exact if_neg hq

/-- A finite double is the multiple of the unit in the last place, of a rational below the overflow bound. -/
theorem toDouble_eq_finite_iff {q y : Rat} :
    toDouble q = .finite y ↔ |q| < overflowBound ∧ y = significand q * unitInLastPlace q := by
  rw [toDouble_eq]
  split_ifs with hover hpos
  · simp [hover]
  · simp [hover]
  · simp [not_le.1 hover, eq_comm]

theorem toDouble_eq_posInf_iff {q : Rat} : toDouble q = .posInf ↔ overflowBound ≤ q := by
  have hbound := overflowBound_pos
  rw [toDouble_eq]
  split_ifs with hover hpos
  · rw [abs_of_pos hpos] at hover
    exact iff_of_true rfl hover
  · exact iff_of_false nofun (by linarith)
  · exact iff_of_false nofun (by linarith [le_abs_self q])

theorem toDouble_eq_negInf_iff {q : Rat} : toDouble q = .negInf ↔ q ≤ -overflowBound := by
  have hbound := overflowBound_pos
  rw [toDouble_eq]
  split_ifs with hover hpos
  · exact iff_of_false nofun (by linarith)
  · rw [abs_of_nonpos (not_lt.1 hpos)] at hover
    exact iff_of_true rfl (by linarith)
  · exact iff_of_false nofun (by linarith [neg_abs_le q])

theorem toDouble_ne_nan (q : Rat) : toDouble q ≠ .nan := by
  rw [toDouble_eq]
  split_ifs <;> nofun

/-- A finite double lies below `2^1024`. -/
theorem abs_lt_of_toDouble {q y : Rat} (h : toDouble q = .finite y) : |y| < pow2 1024 := by
  obtain ⟨hlt, rfl⟩ := toDouble_eq_finite_iff.1 h
  by_cases hq : q = 0
  · rw [hq, significand_zero, Int.cast_zero, zero_mul, abs_zero]
    exact pow2_pos 1024
  · exact not_le.1 (mt (overflow_iff hq).1 hlt.not_ge)

/-- Settles O22. -/
theorem doubleRoundingIsNearestTiesToEven : Obligations.DoubleRoundingIsNearestTiesToEven := by
  refine fun q => ⟨toDouble_ne_nan q, toDouble_eq_posInf_iff, toDouble_eq_negInf_iff, fun y hy =>
    ⟨abs_lt_of_toDouble hy, ?_, fun hq => ?_⟩⟩
  · rintro rfl
    exact (Phys.finite.inj hy).symm
  · obtain ⟨hlow, hhigh⟩ := binaryExponent_bounds hq
    obtain ⟨-, rfl⟩ := toDouble_eq_finite_iff.1 hy
    exact ⟨binaryExponent q, significand q, hlow, hhigh, rfl, abs_significand_le hq, abs_significand_mul_sub_le q,
      significand_even⟩

end Sys2Proof.Machine
end

section
/-! PROOFS. The scaled codec under binary64 (R140, R141, R149) and the bus voltage scenario (R143). The binary64 format is
PRESUMED (log 11). -/

namespace Sys2Proof.Machine

/-! ### What the scaled codec computes under binary64 -/

/-- `DEC.SCALED` for a positive factor under binary64 (R149). -/
theorem decodeScaled_binary64 {k : Rat} (hk : 0 < k) (kind : Kind) (w : WordPair) :
    decodeScaled .binary64 k kind w = requireFinite (divDouble (readRaw kind (rawOf w)) (toDouble k)) :=
  if_pos hk

/-- `ENC.SCALED` of a value whose double is a number (R149). -/
theorem encodeScaled_binary64 {q x : Rat} (hx : toDouble q = .finite x) (tie : RoundTie) (k : Rat) (kind : Kind) :
    encodeScaled .binary64 tie k kind (.finite q) = .ok (split32 (doubleCount tie k x)) := by
  simp only [encodeScaled, hx]

/-- `ENC.SCALED` refuses a value whose double is no number (R149). -/
theorem encodeScaled_binary64_refused {q : Rat} (h : ∀ x, toDouble q ≠ .finite x) (tie : RoundTie) (k : Rat)
    (kind : Kind) : encodeScaled .binary64 tie k kind (.finite q) = .refused .nonFinite := by
  cases hq : toDouble q with
  | finite x => exact absurd hq (h x)
  | posInf | negInf | nan => simp only [encodeScaled, hq]

/-- `ENC.SCALED` refuses a physical value that is no number, under either numerics (R149, log 13). -/
theorem encodeScaled_of_not_finite {p : Phys} (h : p.isFinite = false) (numerics : Numerics) (tie : RoundTie) (k : Rat)
    (kind : Kind) : encodeScaled numerics tie k kind p = .refused .nonFinite := by
  cases p with
  | finite q => cases h
  | posInf | negInf | nan => rfl

/-- The quotient by a double other than 0 is rounded once (R149). -/
theorem divDouble_finite {d : Rat} (hd : d ≠ 0) (n : Int) : divDouble n (.finite d) = toDouble (n / d) :=
  if_neg hd

/-- A quotient by a double that is 0 is no number, and refused (R149, log 11). -/
theorem requireFinite_divDouble_zero (n : Int) : requireFinite (divDouble n (.finite 0)) = .refused .nonFinite := by
  simp only [divDouble, if_true]
  split_ifs <;> rfl

/-- The count under binary64, where the product is a number, is that product rounded (R141, R149). -/
theorem doubleCount_of_finite {k d x y : Rat} (hk : 0 < k) (hd : toDouble k = .finite d)
    (hy : toDouble (x * d) = .finite y) (tie : RoundTie) : doubleCount tie k x = roundTie tie y := by
  simp only [doubleCount, if_pos hk, hd, mulDouble, hy, roundProduct]

/-- Settles O23. -/
theorem scaledCodecUnderBinary64 : Obligations.ScaledCodecUnderBinary64 := by
  refine ⟨fun k kind s p hp => ?_, fun k kind s hk hnum => ⟨fun lo hi hout => exec_decScaled_refused hout k kind s,
    fun lo hi hlo hhi => ?_, fun q hq => ?_, fun q x hx => ?_⟩⟩
  · rw [exec_encScaled, encodeScaled_of_not_finite hp]
    rfl
  · obtain ⟨w, rfl, rfl, hvalue⟩ := exists_words_of_inU16 hlo hhi
    rw [exec_decScaled_words, hnum, decodeScaled_binary64 hk, readRaw_eq_readingOf, hvalue]
    refine ⟨fun d hd hd0 => ?_, fun hd => ?_, fun hd => ?_⟩
    · rw [hd, divDouble_finite hd0]
      cases toDouble ((readingOf kind (pairValue w.lo.toNat w.hi.toNat) : Rat) / d) <;> rfl
    · rw [hd, requireFinite_divDouble_zero]
      rfl
    · rw [hd]
      rfl
  · rw [exec_encScaled, hnum, encodeScaled_binary64_refused hq]
    rfl
  · refine ⟨(split32 (doubleCount s.cfg.roundTie k x)).lo, (split32 (doubleCount s.cfg.roundTie k x)).hi, ?_,
      fun d y hd hy => doubleCount_of_finite hk hd hy s.cfg.roundTie ▸ pairCarries_split32 _⟩
    rw [exec_encScaled, hnum, encodeScaled_binary64 hx]
    rfl

/-! ### The bus voltage register -/

/-- R25 leaves the bus voltage register one factor: `1000 / k = 888`. -/
theorem isBusVoltageCodec_iff (codec : Codec) :
    isBusVoltageCodec codec = true ↔ codec = .scaled busVoltageFactor .unsigned32 := by
  refine ⟨fun h => ?_, fun h => h ▸ busVoltageFactor_isBusVoltageCodec⟩
  cases codec with
  | scaled k kind =>
    cases kind with
    | unsigned32 =>
      have hscale : 1000 / k = 888 := of_decide_eq_true h
      have hk : k ≠ 0 := by
        rintro rfl
        norm_num at hscale
      rw [div_eq_iff hk] at hscale
      rw [show k = busVoltageFactor by rw [busVoltageFactor]; linarith]
    | signed32 => cases h
  | rawUnsigned | rawSigned | mode | bitfield => cases h

/-- A table with R25's facts has the bus voltage register (R25, R143). -/
theorem exists_busVoltageRegister {T : List Register} (h : tableKnownRows T = true) :
    ∃ r ∈ T, r.num = 198 ∧ r.name = "U_BUS" ∧ r.codec = .scaled busVoltageFactor .unsigned32 := by
  simp only [tableKnownRows, Bool.and_eq_true] at h
  obtain ⟨⟨-, hbus⟩, -⟩ := h
  simpa only [List.any_eq_true, Bool.and_eq_true, beq_iff_eq, isBusVoltageCodec_iff, and_assoc] using hbus

theorem busVoltageFactor_pos : 0 < busVoltageFactor := by norm_num [busVoltageFactor]

/-- The double next to the bus voltage factor. -/
def busVoltageDouble : Rat := 2535810600996901 / 2251799813685248

theorem toDouble_busVoltageFactor : toDouble busVoltageFactor = .finite busVoltageDouble := by decide +kernel

/-- Under binary64 the factor's rounding error is lost again in the quotient. -/
theorem toDouble_busVoltage_quotient : toDouble (1000 / busVoltageDouble) = .finite 888 := by decide +kernel

/-- Under binary64 the factor's rounding error is lost again in the product. -/
theorem toDouble_busVoltage_product : toDouble (888 * busVoltageDouble) = .finite 1000 := by decide +kernel

theorem toDouble_888 : toDouble 888 = .finite 888 := by decide +kernel

/-- Raw 1000 decodes to 888 under either numerics (R143, R149). -/
theorem decodeScaled_busVoltage_1000 (numerics : Numerics) :
    decodeScaled numerics busVoltageFactor .unsigned32 { lo := 0x03E8, hi := 0 } = .ok (.phys (.finite 888)) := by
  have hraw : readRaw .unsigned32 (rawOf { lo := 0x03E8, hi := 0 }) = 1000 := by decide
  cases numerics with
  | exact =>
    rw [decodeScaled_exact busVoltageFactor_pos, hraw]
    norm_num [busVoltageFactor]
  | binary64 =>
    rw [decodeScaled_binary64 busVoltageFactor_pos, hraw, toDouble_busVoltageFactor,
      divDouble_finite (by norm_num [busVoltageDouble]), Int.cast_ofNat, toDouble_busVoltage_quotient]
    rfl

/-- 888 encodes to raw 1000 under either numerics and every tie rule (R143, R149). -/
theorem encodeScaled_busVoltage_888 (numerics : Numerics) (tie : RoundTie) :
    encodeScaled numerics tie busVoltageFactor .unsigned32 (.finite 888) = .ok { lo := 0x03E8, hi := 0 } := by
  have hround : roundTie tie 1000 = 1000 := by exact_mod_cast roundTie_intCast tie 1000
  have hsplit : split32 1000 = { lo := 0x03E8, hi := 0 } := by decide
  cases numerics with
  | exact =>
    rw [encodeScaled_exact busVoltageFactor_pos, show (888 : Rat) * busVoltageFactor = 1000 by norm_num [busVoltageFactor],
      hround, hsplit]
  | binary64 =>
    rw [encodeScaled_binary64 toDouble_888,
      doubleCount_of_finite busVoltageFactor_pos toDouble_busVoltageFactor toDouble_busVoltage_product, hround, hsplit]

/-- Settles O14. -/
theorem busVoltageScenarioHolds : Obligations.BusVoltageScenarioHolds := by
  intro s hknown
  obtain ⟨r, hr, hnum, hname, hcodec⟩ := exists_busVoltageRegister hknown
  have hdecode : ∀ w : WordPair, exec (.decode r w.lo.toNat w.hi.toNat) s =
      .next { s with result := some ((decodeScaled s.cfg.numerics busVoltageFactor .unsigned32 w).map .value) } :=
    fun w => by rw [exec_decode_words, hcodec]; rfl
  have hencode : ∀ p : Rat, exec (.encode r (.phys (.finite p))) s =
      .next { s with result := some ((encodeScaled s.cfg.numerics s.cfg.roundTie busVoltageFactor .unsigned32
        (.finite p)).map pairResult) } :=
    fun p => by rw [exec_encode, hcodec]; rfl
  refine ⟨r, hr, hnum, hname, hcodec, ⟨888, ?_, by norm_num, fun _ => rfl⟩, ?_, fun hexact =>
    ⟨fun lo hi hlo hhi => ?_, fun p => ⟨_, _, pairCarries_split32 _, ?_⟩⟩⟩
  · refine (hdecode { lo := 0x03E8, hi := 0 }).trans ?_
    rw [decodeScaled_busVoltage_1000, Answer.map_ok]
  · rw [hencode, encodeScaled_busVoltage_888]
    rfl
  · obtain ⟨w, rfl, rfl, hvalue⟩ := exists_words_of_inU16 hlo hhi
    rw [hdecode, hexact, decodeScaled_exact busVoltageFactor_pos, readRaw_eq_readingOf, hvalue, Answer.map_ok,
      busVoltageFactor, div_div_eq_mul_div]
    rfl
  · rw [hencode, hexact, encodeScaled_exact busVoltageFactor_pos, busVoltageFactor, mul_div_assoc']
    rfl

end Sys2Proof.Machine
end

section
/-! PROOFS. The tolerance of a scaled round trip (R144, R149): half a count under exact numerics, one count under
binary64, by way of the rounding errors measured in counts. The binary64 format is PRESUMED (log 11). -/

namespace Sys2Proof.Machine

/-! ### Errors of doubles, scaled to counts -/

/-- `a` differs from `b` by a relative error of at most `2^-44`, or by `2^-44` near 0: room for one rounding to a double. -/
def CloseTo (a b : Rat) : Prop := |a - b| ≤ (|b| + 1) / 2 ^ 44

/-- Up to `2^34` such an error is at most 1/16. -/
theorem CloseTo.abs_sub_le {a b : Rat} (h : CloseTo a b) (hb : |b| ≤ 2 ^ 34) : |a - b| ≤ 1 / 16 := by
  unfold CloseTo at h
  linarith

/-- A bound on the rounded value bounds the value. -/
theorem CloseTo.abs_le {a b : Rat} (h : CloseTo a b) (ha : |a| ≤ 2 ^ 33) : |b| ≤ 2 ^ 34 := by
  unfold CloseTo at h
  have htriangle : |b| ≤ |a| + |a - b| := by
    have := abs_sub_abs_le_abs_sub b a
    rw [abs_sub_comm b a] at this
    linarith
  linarith

/-- What rounding to a finite double does to a rational: a relative error of `2^-53` or half the smallest subnormal. -/
theorem abs_sub_le_of_toDouble {q y : Rat} (h : toDouble q = .finite y) :
    |y - q| ≤ |q| * pow2 (-53) + pow2 (-1075) := by
  obtain ⟨-, -, -, hfinite⟩ := doubleRoundingIsNearestTiesToEven q
  obtain ⟨-, hzero, hnonzero⟩ := hfinite y h
  by_cases hq : q = 0
  · rw [hzero hq, hq, sub_zero, abs_zero, zero_mul, zero_add]
    exact (pow2_pos _).le
  · obtain ⟨e, m, hlow, -, -, -, herror, -⟩ := hnonzero hq
    have hrelative : pow2 (e - 53) ≤ |q| * pow2 (-53) := by
      rw [sub_eq_add_neg, pow2_add]
      exact mul_le_mul_of_nonneg_right hlow (pow2_pos _).le
    have hpos := pow2_pos (e - 53)
    have hsubnormal := pow2_pos (-1075)
    rcases max_choice e (-1022) with hmax | hmax <;> rw [hmax] at herror
    · linarith
    · rw [show (-1022 - 53 : Int) = -1075 from rfl] at herror
      linarith

/-- A rational that rounds to a finite double is below `2^1024`. -/
theorem abs_lt_of_toDouble_finite {q y : Rat} (h : toDouble q = .finite y) : |q| < pow2 1024 := by
  have hlt := (toDouble_eq_finite_iff.1 h).1
  rw [overflowBound] at hlt
  linarith [pow2_pos 970]

/-- Rounding to a double still leaves a value close after scaling by any factor in the range of a double. -/
theorem closeTo_of_toDouble {q y c : Rat} (h : toDouble q = .finite y) (hc : 0 < c) (hc1024 : c < pow2 1024) :
    CloseTo (c * y) (c * q) := by
  have herror := abs_sub_le_of_toDouble h
  have hsubnormal : c * pow2 (-1075) ≤ 1 / 2 ^ 44 := by
    calc c * pow2 (-1075) ≤ pow2 1024 * pow2 (-1075) := mul_le_mul_of_nonneg_right hc1024.le (pow2_pos _).le
      _ = pow2 (-51) := by rw [← pow2_add]; rfl
      _ ≤ 1 / 2 ^ 44 := by rw [pow2_eq_zpow]; norm_num
  have hrelative : pow2 (-53) ≤ 1 / 2 ^ 44 := by rw [pow2_eq_zpow]; norm_num
  have habs : c * |q| = |c * q| := by rw [abs_mul, abs_of_pos hc]
  rw [CloseTo, ← mul_sub, abs_mul, abs_of_pos hc]
  calc c * |y - q| ≤ c * (|q| * pow2 (-53) + pow2 (-1075)) := mul_le_mul_of_nonneg_left herror hc.le
    _ = |c * q| * pow2 (-53) + c * pow2 (-1075) := by rw [← habs]; ring
    _ ≤ |c * q| * (1 / 2 ^ 44) + 1 / 2 ^ 44 :=
      add_le_add (mul_le_mul_of_nonneg_left hrelative (abs_nonneg _)) hsubnormal
    _ = (|c * q| + 1) / 2 ^ 44 := by ring

/-- Rounding to a double leaves a value close. -/
theorem closeTo_of_toDouble_unscaled {q y : Rat} (h : toDouble q = .finite y) : CloseTo y q := by
  have hone : 1 < pow2 1024 := by rw [pow2_eq_zpow]; exact one_lt_zpow₀ one_lt_two (by norm_num)
  simpa only [one_mul] using closeTo_of_toDouble h one_pos hone

/-- Against `2^-1030` and anything above it, both parts of a rounding error are small. -/
theorem abs_sub_le_div_of_toDouble {k d m : Rat} (hd : toDouble k = .finite d) (hkm : |k| ≤ m)
    (hm : pow2 (-1030) ≤ m) : |d - k| ≤ m / 16 := by
  have hmpos : 0 < m := (pow2_pos _).trans_le hm
  have hsmall : pow2 (-53) + pow2 (-45) ≤ 1 / 16 := by rw [pow2_eq_zpow, pow2_eq_zpow]; norm_num
  calc |d - k| ≤ |k| * pow2 (-53) + pow2 (-1075) := abs_sub_le_of_toDouble hd
    _ = |k| * pow2 (-53) + pow2 (-1030) * pow2 (-45) := by rw [← pow2_add (-1030)]; rfl
    _ ≤ m * pow2 (-53) + m * pow2 (-45) :=
      add_le_add (mul_le_mul_of_nonneg_right hkm (pow2_pos _).le) (mul_le_mul_of_nonneg_right hm (pow2_pos _).le)
    _ = m * (pow2 (-53) + pow2 (-45)) := (mul_add _ _ _).symm
    _ ≤ m * (1 / 16) := mul_le_mul_of_nonneg_left hsmall hmpos.le
    _ = m / 16 := by ring

/-- A factor that is not tiny keeps its ratio to its double close to 1. -/
theorem abs_div_sub_one_le {k d : Rat} (hd : toDouble k = .finite d) (hk : pow2 (-1030) ≤ k) :
    |d / k - 1| ≤ 1 / 16 := by
  have hkpos : 0 < k := (pow2_pos _).trans_le hk
  rw [div_sub_one hkpos.ne', abs_div, abs_of_pos hkpos, div_le_iff₀ hkpos]
  linarith [abs_sub_le_div_of_toDouble hd (abs_of_pos hkpos).le hk]

/-- The round trip in counts: `Q` and `X` are the value and its double times the factor, `D` the ratio of the factor's double
to the factor, `y` the rounded product, `n` the count, `N` the quotient times the factor and `Q'` its double. -/
theorem abs_sub_le_one_of_closeTo {Q X D y N Q' : Rat} {n : Int} (hX : CloseTo X Q) (hD : |D - 1| ≤ 1 / 16)
    (hy : CloseTo y (X * D)) (hn : |y - n| ≤ 1 / 2) (hrange : |(n : Rat)| ≤ 2 ^ 32) (hN : N * D = n)
    (hQ' : CloseTo Q' N) : |Q' - Q| ≤ 1 := by
  have hDlow : 15 / 16 ≤ D := by linarith [(abs_le.1 hD).1]
  have hscale : ∀ z : Rat, 15 / 16 * |z| ≤ |z * D| := fun z => by
    rw [abs_mul, abs_of_pos (by linarith : 0 < D), mul_comm]
    exact mul_le_mul_of_nonneg_left hDlow (abs_nonneg z)
  have hybound : |y| ≤ 2 ^ 33 := by linarith [abs_sub_abs_le_abs_sub y n]
  have hproduct : |y - X * D| ≤ 1 / 16 := hy.abs_sub_le (hy.abs_le hybound)
  have hXbound : |X| ≤ 2 ^ 33 := by
    linarith [hscale X, abs_sub_abs_le_abs_sub (X * D) y, abs_sub_comm (X * D) y, abs_sub_abs_le_abs_sub y n]
  have hvalue : |X - Q| ≤ 1 / 16 := hX.abs_sub_le (hX.abs_le hXbound)
  have hNbound : |N| ≤ 2 ^ 34 := by
    have := hscale N
    rw [hN] at this
    linarith
  have hquotient : |Q' - N| ≤ 1 / 16 := hQ'.abs_sub_le hNbound
  have hcount : |N - X| ≤ 3 / 5 := by
    have hdiff : |(N - X) * D| ≤ 9 / 16 := by
      rw [sub_mul, hN]
      calc |n - X * D| ≤ |n - y| + |y - X * D| := abs_sub_le _ _ _
        _ ≤ 9 / 16 := by rw [abs_sub_comm]; linarith
    linarith [hscale (N - X)]
  calc |Q' - Q| ≤ |Q' - N| + |N - Q| := abs_sub_le _ _ _
    _ ≤ |Q' - N| + (|N - X| + |X - Q|) := by gcongr; exact abs_sub_le _ _ _
    _ ≤ 1 := by linarith

/-! ### The round trip -/

theorem abs_le_of_inKind {kind : Kind} {n : Int} (h : inKind kind n) : |(n : Rat)| ≤ 2 ^ 32 := by
  have hrange : |n| ≤ 2 ^ 32 := by
    cases kind with
    | unsigned32 =>
      obtain ⟨hmin, hmax⟩ : 0 ≤ n ∧ n ≤ 4294967295 := h
      exact abs_le.2 ⟨by omega, by omega⟩
    | signed32 =>
      obtain ⟨hmin, hmax⟩ : -2147483648 ≤ n ∧ n ≤ 2147483647 := h
      exact abs_le.2 ⟨by omega, by omega⟩
  exact_mod_cast hrange

/-- Where the factor is tiny every value counts as 0, which is within one count of it. -/
theorem abs_sub_le_of_tiny_factor {tie : RoundTie} {k q d x y q' : Rat} (hk : 0 < k) (htiny : k < pow2 (-1030))
    (hd : toDouble k = .finite d) (hx : toDouble q = .finite x) (hy : toDouble (x * d) = .finite y)
    (hq' : toDouble ((roundTie tie y : Rat) / d) = .finite q') : |q' - q| ≤ 1 / k := by
  have hdsmall : |d| ≤ 2 * pow2 (-1030) := by
    have herror := abs_sub_le_div_of_toDouble hd ((abs_of_pos hk).trans_le htiny.le) le_rfl
    linarith [abs_sub_abs_le_abs_sub d k, abs_of_pos hk, pow2_pos (-1030)]
  have hproduct : |x * d| ≤ 1 / 16 := by
    rw [abs_mul]
    calc |x| * |d| ≤ pow2 1024 * (2 * pow2 (-1030)) :=
          mul_le_mul (abs_lt_of_toDouble hx).le hdsmall (abs_nonneg d) (pow2_pos _).le
      _ = 2 * pow2 (-6) := by rw [mul_left_comm, ← pow2_add]; rfl
      _ ≤ 1 / 16 := by rw [pow2_eq_zpow]; norm_num
  have hzero : roundTie tie y = 0 := by
    have hysmall : |y - x * d| ≤ 1 / 16 :=
      (closeTo_of_toDouble_unscaled hy).abs_sub_le (hproduct.trans (by norm_num))
    have hnear := abs_sub_roundTie_le tie y
    have hlt : |(roundTie tie y : Rat)| < 1 := by
      linarith [abs_sub_abs_le_abs_sub (roundTie tie y : Rat) y, abs_sub_comm (roundTie tie y : Rat) y,
        abs_sub_abs_le_abs_sub y (x * d)]
    exact Int.abs_lt_one_iff.1 (by exact_mod_cast hlt)
  have hq'zero : q' = 0 := by
    rw [hzero, Int.cast_zero, zero_div] at hq'
    exact (Phys.finite.inj hq').symm
  rw [hq'zero, zero_sub, abs_neg, le_div_iff₀ hk]
  calc |q| * k ≤ pow2 1024 * pow2 (-1030) :=
        mul_le_mul (abs_lt_of_toDouble_finite hx).le htiny.le hk.le (pow2_pos _).le
    _ = pow2 (-6) := by rw [← pow2_add]; rfl
    _ ≤ 1 := by rw [pow2_eq_zpow]; norm_num

/-- Under binary64 the value that comes back lies within one count of the value sent. -/
theorem abs_sub_le_one_count {tie : RoundTie} {kind : Kind} {k q d x y q' : Rat} (hk : 0 < k)
    (hd : toDouble k = .finite d) (hd0 : d ≠ 0) (hx : toDouble q = .finite x) (hy : toDouble (x * d) = .finite y)
    (hrange : inKind kind (roundTie tie y)) (hq' : toDouble ((roundTie tie y : Rat) / d) = .finite q') :
    |q' - q| ≤ 1 / k := by
  rcases lt_or_ge k (pow2 (-1030)) with htiny | hlarge
  · exact abs_sub_le_of_tiny_factor hk htiny hd hx hy hq'
  · have hk1024 : k < pow2 1024 := (le_abs_self k).trans_lt (abs_lt_of_toDouble_finite hd)
    have hproduct : CloseTo y (k * x * (d / k)) := by
      rw [show k * x * (d / k) = x * d by field_simp]
      exact closeTo_of_toDouble_unscaled hy
    have hcounts : |k * q' - k * q| ≤ 1 :=
      abs_sub_le_one_of_closeTo (closeTo_of_toDouble hx hk hk1024) (abs_div_sub_one_le hd hlarge) hproduct
        (abs_sub_roundTie_le tie y) (abs_le_of_inKind hrange) (by field_simp) (closeTo_of_toDouble hq' hk hk1024)
    rwa [← mul_sub, abs_mul, abs_of_pos hk, ← le_div_iff₀' hk] at hcounts

/-- Under exact numerics the value that comes back lies within half a count of the value sent (R144). -/
theorem abs_roundTie_div_sub_le (tie : RoundTie) {k : Rat} (hk : 0 < k) (q : Rat) :
    |(roundTie tie (q * k) : Rat) / k - q| ≤ 1 / (2 * k) := by
  have hnear := abs_sub_roundTie_le tie (q * k)
  rw [abs_sub_comm] at hnear
  rw [div_sub' hk.ne', abs_div, abs_of_pos hk, mul_comm k q, ← div_div]
  exact div_le_div_of_nonneg_right hnear hk.le

/-- Settles O13: the count in range comes back as the raw integer, so the decode divides the count itself. -/
theorem scaledRoundTripWithinTolerance : Obligations.ScaledRoundTripWithinTolerance := by
  refine fun k kind q s hk => ⟨fun hnum hrange => ?_, fun d x y q' hnum hd hd0 hx hy hrange hq' => ?_⟩
  · refine ⟨(split32 (roundTie s.cfg.roundTie (q * k))).lo, (split32 (roundTie s.cfg.roundTie (q * k))).hi, _, ?_, ?_,
      abs_roundTie_div_sub_le s.cfg.roundTie hk q⟩
    · rw [exec_encScaled, hnum, encodeScaled_exact hk]
      rfl
    · rw [exec_decScaled_words, hnum, decodeScaled_exact hk, rawOf_split32, readRaw_wrap32 hrange, Answer.map_ok]
  · refine ⟨(split32 (roundTie s.cfg.roundTie y)).lo, (split32 (roundTie s.cfg.roundTie y)).hi, ?_, ?_,
      abs_sub_le_one_count hk hd hd0 hx hy hrange hq'⟩
    · rw [exec_encScaled, hnum, encodeScaled_binary64 hx, doubleCount_of_finite hk hd hy]
      rfl
    · rw [exec_decScaled_words, hnum, decodeScaled_binary64 hk, rawOf_split32, readRaw_wrap32 hrange, hd,
        divDouble_finite hd0, hq']
      rfl

end Sys2Proof.Machine
end

section
/-! PROOFS. The registry (R170 to R174): what each lookup answers, and the binary search against the lookup by address. -/

namespace Sys2Proof.Machine

/-! ### What the lookups answer -/

/-- A lookup that finds a Register hands it back and changes nothing else (R58, R63). -/
theorem replyLookup_of_resolve_ok {s : State} {key : RegKey} {r : Register} (h : resolve s.cfg.table key = .ok r) :
    replyLookup s key = .next { s with result := some (.ok (.register r)) } := by
  rw [replyLookup, State.reply_eq_next, h, Answer.map_ok]

/-- In a well-formed table the lookup by its name finds a Register (R171). -/
theorem resolve_name_of_mem {T : List Register} (h : tableWf T = true) {r : Register} (hr : r ∈ T) :
    resolve T (.name r.name) = .ok r := by
  simp [resolve, registerNamed_of_mem h hr]

/-- The lookup by name fails where no Register has that name (R171, R210). -/
theorem resolve_name_fail {T : List Register} {name : String} (h : ∀ r ∈ T, r.name ≠ name) :
    resolve T (.name name) = .fail (.unknownRegister (.name name)) := by
  have hnone : registerNamed T name = none := List.find?_eq_none.2 fun r hr => by simpa using h r hr
  simp [resolve, hnone]

/-- In a well-formed table the lookup at an address of its span finds a Register (R172). -/
theorem resolve_addr_of_mem {T : List Register} (h : tableWf T = true) {r : Register} (hr : r ∈ T) {a : Int}
    (ha : 2 * (r.num : Int) ≤ a ∧ a ≤ 2 * (r.num : Int) + 1) : resolve T (.addr a) = .ok r := by
  simp [resolve, registerAt_of_mem h hr ha]

/-- Where the lookup at the address `2*n` finds a Register, so does the lookup by the number `n` (R173). -/
theorem resolve_num_of_resolve_addr {T : List Register} {n : Int} {r : Register}
    (h : resolve T (.addr (2 * n)) = .ok r) : resolve T (.num n) = .ok r := by
  cases hf : registerAt T (2 * n) with
  | none => simp [resolve, hf] at h
  | some r' => simpa [resolve, hf] using h

/-- Settles O24. -/
theorem addrIsTwiceTheNumber : Obligations.AddrIsTwiceTheNumber :=
  fun r s => ⟨rfl, State.reply_eq_next s (.ok (.addrs (lowAddr r) (lowAddr r + 1)))⟩

/-- Settles O25. -/
theorem resolveByNameIsExactMatch : Obligations.ResolveByNameIsExactMatch := by
  refine fun name s hT => ⟨rfl, fun r hr hname => ?_, fun hother => ?_⟩
  · exact replyLookup_of_resolve_ok (hname ▸ resolve_name_of_mem hT hr)
  · exact exec_of_resolve_fail s rfl (resolve_name_fail hother)

/-- Settles O26. -/
theorem resolveByAddressFindsTheSpan : Obligations.ResolveByAddressFindsTheSpan := by
  refine fun a s hT => ⟨rfl, fun r hr hlo hhi => ?_, fun houtside => ?_⟩
  · exact replyLookup_of_resolve_ok (resolve_addr_of_mem hT hr ⟨hlo, hhi⟩)
  · exact exec_of_resolve_fail s rfl (resolve_addr_fail houtside)

/-- Settles O27: the even address of its span is twice a Register's number. -/
theorem resolveByNumberFindsTheNumber : Obligations.ResolveByNumberFindsTheNumber := by
  refine fun n s hT => ⟨rfl, fun r hr hn => ?_, fun hother => ?_⟩
  · have hat : resolve s.cfg.table (.addr (2 * n)) = .ok r := resolve_addr_of_mem hT hr (by omega)
    have hnum := replyLookup_of_resolve_ok (resolve_num_of_resolve_addr hat)
    exact ⟨hnum, hnum.trans (replyLookup_of_resolve_ok hat).symm⟩
  · exact exec_of_resolve_fail s rfl (resolve_num_fail hother)

/-! ### The binary search -/

/-- In a well-formed table a later position holds a greater number (R24). -/
theorem tableWf_num_lt {T : List Register} (h : tableWf T = true) {i j : Nat} {r r' : Register}
    (hr : T[i]? = some r) (hr' : T[j]? = some r') (hij : i < j) : r.num < r'.num := by
  obtain ⟨hi, rfl⟩ := List.getElem?_eq_some_iff.1 hr
  obtain ⟨hj, rfl⟩ := List.getElem?_eq_some_iff.1 hr'
  exact (List.pairwise_iff_getElem.1 (tableWf_pairwise h) i j hi hj hij).1

/-- The invariant of R174's loop: the first span whose upper bound reaches `a` lies at a position from `lo` to `hi`, where
the position `T.length` stands for none. -/
structure SearchInvariant (T : List Register) (a : Int) (lo hi : Nat) : Prop where
  lo_le_hi : lo ≤ hi
  hi_le_length : hi ≤ T.length
  below : ∀ j r, T[j]? = some r → j < lo → 2 * (r.num : Int) + 1 < a
  reached : ∀ j r, T[j]? = some r → hi ≤ j → a ≤ 2 * (r.num : Int) + 1

/-- Before the loop every position is a candidate. -/
theorem SearchInvariant.start (T : List Register) (a : Int) : SearchInvariant T a 0 T.length where
  lo_le_hi := Nat.zero_le _
  hi_le_length := le_rfl
  below := fun _ _ _ hj => absurd hj (Nat.not_lt_zero _)
  reached := fun _ _ hr hj => absurd (List.getElem?_eq_some_iff.1 hr).1 hj.not_gt

/-- A span that ends before `a` rules out its position and every earlier one. -/
theorem SearchInvariant.raise_lo {T : List Register} (hT : tableWf T = true) {a : Int} {lo mid hi : Nat} {r : Register}
    (h : SearchInvariant T a lo hi) (hmid : mid < hi) (hr : T[mid]? = some r) (hlt : 2 * (r.num : Int) + 1 < a) :
    SearchInvariant T a (mid + 1) hi where
  lo_le_hi := hmid
  hi_le_length := h.hi_le_length
  below := fun j q hq hj => by
    rcases Nat.lt_succ_iff_lt_or_eq.1 hj with hj | rfl
    · have := tableWf_num_lt hT hq hr hj
      omega
    · rwa [Option.some.inj (hq.symm.trans hr)]
  reached := h.reached

/-- A span whose upper bound reaches `a` rules out every later position. -/
theorem SearchInvariant.lower_hi {T : List Register} (hT : tableWf T = true) {a : Int} {lo mid hi : Nat} {r : Register}
    (h : SearchInvariant T a lo hi) (hlo : lo ≤ mid) (hr : T[mid]? = some r) (hge : a ≤ 2 * (r.num : Int) + 1) :
    SearchInvariant T a lo mid where
  lo_le_hi := hlo
  hi_le_length := (List.getElem?_eq_some_iff.1 hr).1.le
  below := h.below
  reached := fun j q hq hj => by
    rcases hj.eq_or_lt with rfl | hj
    · rwa [Option.some.inj (hq.symm.trans hr)]
    · have := tableWf_num_lt hT hr hq hj
      omega

/-- With a halving of fuel for each candidate the loop ends at the one position its invariant leaves. -/
theorem SearchInvariant.at_searchIndex {T : List Register} (hT : tableWf T = true) {a : Int} {fuel lo hi : Nat}
    (h : SearchInvariant T a lo hi) (hfuel : hi ≤ lo + fuel) :
    SearchInvariant T a (searchIndex T a fuel lo hi) (searchIndex T a fuel lo hi) := by
  fun_induction searchIndex T a fuel lo hi with
  | case1 lo hi =>
    obtain rfl : lo = hi := le_antisymm h.lo_le_hi hfuel
    exact h
  | case2 fuel lo hi hlt mid r hr hbelow ih => exact ih (h.raise_lo hT (by omega) hr hbelow) (by omega)
  | case3 fuel lo hi hlt mid r hr hreached ih =>
    exact ih (h.lower_hi hT (by omega) hr (not_lt.1 hreached)) (by omega)
  | case4 fuel lo hi hlt mid hnone =>
    have := h.hi_le_length
    have := List.getElem?_eq_none_iff.1 hnone
    omega
  | case5 fuel lo hi hge =>
    obtain rfl : lo = hi := le_antisymm h.lo_le_hi (not_lt.1 hge)
    exact h

/-- Where the loop has ended, a Register whose span holds the address stands at that position. -/
theorem SearchInvariant.getElem?_of_span {T : List Register} (hT : tableWf T = true) {a : Int} {i : Nat}
    (h : SearchInvariant T a i i) {r : Register} (hr : r ∈ T)
    (ha : 2 * (r.num : Int) ≤ a ∧ a ≤ 2 * (r.num : Int) + 1) : T[i]? = some r := by
  obtain ⟨j, hj⟩ := List.mem_iff_getElem?.1 hr
  rcases lt_trichotomy j i with hji | rfl | hij
  · have := h.below j r hj hji
    omega
  · exact hj
  · have hi : i < T.length := hij.trans (List.getElem?_eq_some_iff.1 hj).1
    have hreached := h.reached i T[i] (List.getElem?_eq_getElem hi) le_rfl
    have := tableWf_num_lt hT (List.getElem?_eq_getElem hi) hj hij
    omega

/-- Settles O28: the loop ends at the only position whose span can hold the address. -/
theorem binarySearchFindsTheSameRegister : Obligations.BinarySearchFindsTheSameRegister := by
  intro T a hT
  have hend := (SearchInvariant.start T a).at_searchIndex hT (fuel := T.length + 1) (by omega)
  unfold searchRegister
  generalize searchIndex T a (T.length + 1) 0 T.length = i at hend ⊢
  cases hf : registerAt T a with
  | some r =>
    obtain ⟨hr, hspan⟩ := registerAt_some hf
    rw [hend.getElem?_of_span hT hr hspan]
    exact if_pos hspan.1
  | none =>
    cases hi : T[i]? with
    | none => rfl
    | some r =>
      have hupper := hend.reached i r hi le_rfl
      exact if_neg fun hlow => registerAt_none hf r (List.mem_of_getElem? hi) ⟨hlow, hupper⟩

end Sys2Proof.Machine
end

section
/-! PROOFS. The bus port (R185, R186) and typed register access (R187 to R194): what each operation answers and what a write
replaces, then the statements. -/

namespace Sys2Proof.Machine

/-! ### Lookups -/

/-- A state in canonical form has a well-formed table (R24). -/
theorem State.Inv.wf_table {s : State} (hs : s.Inv) : tableWf s.cfg.table = true := ((Memory.wf_iff _ _).1 hs).1

/-- A lookup that finds no Register fails with the operand as given (R210). -/
theorem resolve_fail_of_ne_ok {T : List Register} {key : RegKey} (h : ∀ r, resolve T key ≠ .ok r) :
    resolve T key = .fail (.unknownRegister key) :=
  (resolve_cases T key).resolve_left fun ⟨r, _, he⟩ => h r he

/-- The operands that name a Register: its name, either address of its span, its number (R88). -/
def Names (r : Register) (key : RegKey) : Prop :=
  key = .name r.name ∨ key = .addr (2 * r.num) ∨ key = .addr (2 * r.num + 1) ∨ key = .num r.num

/-- In a well-formed table a lookup by any operand that names a Register finds it (R171 to R173). -/
theorem resolve_of_names {T : List Register} (hT : tableWf T = true) {r : Register} (hr : r ∈ T) {key : RegKey}
    (hkey : Names r key) : resolve T key = .ok r := by
  have haddr {a : Int} := resolve_addr_of_mem hT hr (a := a)
  rcases hkey with rfl | rfl | rfl | rfl
  · exact resolve_name_of_mem hT hr
  · exact haddr (by omega)
  · exact haddr (by omega)
  · exact resolve_num_of_resolve_addr (haddr (by omega))

/-! ### The address check and the port -/

/-- The address check passes at a low word's address, and at a high word's where the policy is not to refuse (R56, R185). -/
theorem checkPairAddress_of_allowed {cfg : Config} {r : Register} {a : Int}
    (ha : a = 2 * r.num ∨ (a = 2 * r.num + 1 ∧ cfg.oddPair = .alias_)) : checkPairAddress cfg r a = .ok () := by
  rcases ha with rfl | ⟨-, halias⟩
  · exact checkPairAddress_low cfg r
  · simp [checkPairAddress, halias]

/-- Under `refuse` the address check refuses a high word's address (R56, R185). -/
theorem checkPairAddress_of_refuse {cfg : Config} (r : Register) (h : cfg.oddPair = .refuse) :
    checkPairAddress cfg r (2 * r.num + 1) = .refused .oddPairAddress :=
  if_pos ⟨rfl, h⟩

section
variable {s : State} {r : Register} {a : Int} (he : resolve s.cfg.table (.addr a) = .ok r)
include he

/-- A read whose address passes the check gives the words of the cell found (R185). -/
theorem readPort_of_checked {v : Raw} (hc : checkPairAddress s.cfg r a = .ok ()) (hv : s.cell r.num = some v) :
    readPort s a = .ok (.ok (wordsOf v)) := by
  simp [readPort, he, hc, hv]

/-- A read whose address does not pass the check is refused as the check says (R185). -/
theorem readPort_of_addressRefused {q : Reason} (hc : checkPairAddress s.cfg r a = .refused q) :
    readPort s a = .ok (.refused q) := by
  simp [readPort, he, hc]

/-- A write of words inside U16 whose address does not pass the check is refused as the check says (R186). -/
theorem writePort_of_addressRefused {q : Reason} (hc : checkPairAddress s.cfg r a = .refused q) (w : WordPair) :
    writePort s a (.ok w) = .ok (.refused q) := by
  cases hcheck : s.cfg.wordCheck <;> simp [writePort, he, hc, hcheck]

/-- A write whose address passes the check and whose words are refused is refused as the words are (R95, R186). -/
theorem writePort_of_wordsRefused (hc : checkPairAddress s.cfg r a = .ok ()) (q : Reason) :
    writePort s a (.refused q) = .ok (.refused q) := by
  cases hcheck : s.cfg.wordCheck <;> simp [writePort, he, hc, hcheck]

/-- Where both the address and the words are refused, the write has one of the two refusals (log 14). -/
theorem writePort_of_bothRefused {q : Reason} (hc : checkPairAddress s.cfg r a = .refused q) (q' : Reason) :
    writePort s a (.refused q') = .ok (.refused q) ∨ writePort s a (.refused q') = .ok (.refused q') := by
  cases hcheck : s.cfg.wordCheck with
  | afterAddressCheck => exact .inl (by simp [writePort, he, hc, hcheck])
  | beforeAddressCheck => exact .inr (by simp [writePort, he, hcheck])

end

/-! ### The ends of a read and of a write -/

/-- A read answers in the result port alone (R185). -/
theorem State.replyRead_ok (s : State) (ans : Answer Result) :
    s.replyRead (.ok ans) = .next { s with result := some ans } := by
  rw [State.replyRead, State.deliver_eq]

/-- A refused write changes the result port alone (R12, R186). -/
theorem State.replyWrite_refused (s : State) (q : Reason) :
    s.replyWrite (.ok (.refused q)) = .next { s with result := some (.refused q) } :=
  rfl

/-- `READWORDS` answers with the pair the port gives, or its refusal (R185). -/
theorem exec_readWords_of_readPort {s : State} {a : Int} {ans : Answer WordPair} (h : readPort s a = .ok ans) :
    exec (.readWords a) s = .next { s with result := some (ans.map pairResult) } := by
  rw [exec, execReadWords, h]
  exact State.replyRead_ok s _

/-- `WRITEWORDS` checks its words and goes to the port (R186). -/
theorem exec_writeWords (a lo hi : Int) (s : State) :
    exec (.writeWords a lo hi) s = s.replyWrite (writePort s a (pairOperand lo hi)) :=
  rfl

/-! ### What a write replaces -/

/-- `t` is `s` after a write of `u` to the cell of `r`: no other cell and no word outside the span of `r` differs, and beside
the storage only the result port, which holds `done` (R31, R186). -/
structure ReplacesCell (s t : State) (r : Register) (u : Raw) : Prop where
  cell : t.cell r.num = some u
  cell_other : ∀ m, m ≠ r.num → t.cell m = s.cell m
  word_other : ∀ b : Int, b ≠ 2 * r.num → b ≠ 2 * r.num + 1 → t.word b = s.word b
  frame : t = { s with cells := t.cells, result := some (.ok .done) }

/-- The word view outside the span of a Register does not turn on its cell (R31, R52). -/
theorem State.word_setCell_other (s : State) {n : Nat} (u : Raw) {b : Int} (hlow : b ≠ 2 * n) (hhigh : b ≠ 2 * n + 1) :
    (s.setCell n u).word b = s.word b := by
  unfold State.word
  rw [State.setCell_cfg]
  cases hf : registerAt s.cfg.table b with
  | none => rfl
  | some r =>
    obtain ⟨-, hspan⟩ := registerAt_some hf
    have hne : r.num ≠ n := by omega
    simp only [State.cell_setCell_other s n r.num u hne]

/-- The state in which a write that took effect leaves the machine (R186). -/
def State.written (s : State) (n : Nat) (u : Raw) : State := { s.setCell n u with result := some (.ok .done) }

/-- A write that took effect delivers `done` in the state written (R186). -/
theorem State.replyWrite_ok (s : State) (n : Nat) (u : Raw) :
    s.replyWrite (.ok (.ok (s.setCell n u))) = .next (s.written n u) :=
  rfl

/-- A write keeps the storage in canonical form (R30). -/
theorem State.Inv.written {s : State} (hs : s.Inv) (n : Nat) (u : Raw) : (s.written n u).Inv :=
  State.setCell_wf s n u hs

/-- In canonical form a write replaces the one cell of a Register of the table (R31). -/
theorem State.Inv.replacesCell_written {s : State} (hs : s.Inv) {r : Register} (hr : r ∈ s.cfg.table) (u : Raw) :
    ReplacesCell s (s.written r.num u) r u where
  cell := by
    obtain ⟨v, hv⟩ := hs.cell_of_mem hr
    exact (State.cell_setCell_same s r.num u).trans (by rw [hv, Option.map_some])
  cell_other := fun m hm => State.cell_setCell_other s r.num m u hm
  word_other := fun _ hlow hhigh => State.word_setCell_other s u hlow hhigh
  frame := rfl

/-- `WRITEWORDS` of a pair at an address that passes the check writes the pair's value (R186). -/
theorem exec_writeWords_written {s : State} (hs : s.Inv) {r : Register} (hr : r ∈ s.cfg.table) {a lo hi : Int}
    {w : WordPair} (ha : a = 2 * r.num ∨ (a = 2 * r.num + 1 ∧ s.cfg.oddPair = .alias_))
    (hw : pairOperand lo hi = .ok w) : exec (.writeWords a lo hi) s = .next (s.written r.num (rawOf w)) := by
  obtain ⟨v, hv⟩ := hs.cell_of_mem hr
  have he : resolve s.cfg.table (.addr a) = .ok r := resolve_addr_of_mem hs.wf_table hr (by omega)
  rw [exec_writeWords, hw, writePort_of_checked w he (checkPairAddress_of_allowed ha), hv]
  exact State.replyWrite_ok s r.num _

/-! ### Pair reads and writes -/

/-- Settles O32: the cell's two words at the low address, and at the high one what the address check leaves of them. -/
theorem readWordsReturnsTheCellsPair : Obligations.ReadWordsReturnsTheCellsPair := by
  refine fun s hs => ⟨fun _ => rfl, fun r hr v hv => ?_, fun a ha => exec_of_resolve_fail s rfl (resolve_addr_fail ha)⟩
  have he : resolve s.cfg.table (.addr (2 * r.num + 1)) = .ok r := resolve_addr_of_mem hs.wf_table hr (by omega)
  refine ⟨lowWord v, highWord v, lowWord_toNat v, highWord_toNat v, ?_, fun halias => ?_, fun hrefuse => ?_⟩
  · exact exec_readWords_of_readPort (readPort_low s r v hs hr hv)
  · exact exec_readWords_of_readPort (readPort_of_checked he (checkPairAddress_of_allowed (.inr ⟨rfl, halias⟩)) hv)
  · exact exec_readWords_of_readPort (readPort_of_addressRefused he (checkPairAddress_of_refuse r hrefuse))

/-- Settles O33: the two words of the pair written are the words of the cell that holds it. -/
theorem writeWordsReplacesOneCell : Obligations.WriteWordsReplacesOneCell := by
  intro s r a lo hi hs hr hlo hhi ha
  obtain ⟨w, hw, rfl, rfl⟩ := pairOperand_ok lo hi hlo hhi
  obtain ⟨hcell, hcells, hwords, hframe⟩ := hs.replacesCell_written hr (rawOf w)
  have hpair : wordsOf (rawOf w) = w := wordsOf_rawOf w
  have hlow := (hs.written r.num (rawOf w)).word_low hr hcell
  have hhigh := (hs.written r.num (rawOf w)).word_high hr hcell
  refine ⟨rfl, _, exec_writeWords_written hs hr ha hw, ⟨_, hcell, rawOf_toNat_eq_pairValue w⟩, ⟨_, hlow, ?_⟩,
    ⟨_, hhigh, ?_⟩, hcells, hwords, hframe⟩
  · exact congrArg (fun p : WordPair => (p.lo.toNat : Int)) hpair
  · exact congrArg (fun p : WordPair => (p.hi.toNat : Int)) hpair

/-- Settles O34: the lookup decides first, then whichever of the two checks refuses. -/
theorem writeWordsTurnedAwayWritesNothing : Obligations.WriteWordsTurnedAwayWritesNothing := by
  intro s a lo hi hs
  have hresolve {r : Register} (hr : r ∈ s.cfg.table) (ha : a = 2 * r.num ∨ a = 2 * r.num + 1) :
      resolve s.cfg.table (.addr a) = .ok r := resolve_addr_of_mem hs.wf_table hr (by omega)
  refine ⟨fun houtside => exec_of_resolve_fail s rfl (resolve_addr_fail houtside), fun r hr hodd hrefuse hlo hhi => ?_,
    fun r hr ha hout => ?_, fun r hr hodd hrefuse hout => ?_⟩
  · obtain ⟨w, hw, -, -⟩ := pairOperand_ok lo hi hlo hhi
    have hcheck := hodd ▸ checkPairAddress_of_refuse r hrefuse
    rw [exec_writeWords, hw, writePort_of_addressRefused (hresolve hr (.inr hodd)) hcheck, State.replyWrite_refused]
  · have hcheck := checkPairAddress_of_allowed ha
    rw [exec_writeWords, pairOperand_refused lo hi hout,
      writePort_of_wordsRefused (hresolve hr (ha.imp_right And.left)) hcheck, State.replyWrite_refused]
  · have hcheck := hodd ▸ checkPairAddress_of_refuse r hrefuse
    rw [exec_writeWords, pairOperand_refused lo hi hout]
    rcases writePort_of_bothRefused (hresolve hr (.inr hodd)) hcheck .wordRange with h | h
    · exact ⟨_, .inl rfl, by rw [h, State.replyWrite_refused]⟩
    · exact ⟨_, .inr rfl, by rw [h, State.replyWrite_refused]⟩

/-! ### What the dispatch can refuse -/

/-- A quotient is refused only where it is no number (R149). -/
theorem requireFinite_ne_oddPairAddress (p : Phys) : requireFinite p ≠ .refused .oddPairAddress := by
  cases p <;> simp [requireFinite]

/-- `DECODE` never refuses an address: it is given none (R160). -/
theorem decodeBy_ne_oddPairAddress (cfg : Config) (codec : Codec) (w : WordPair) :
    decodeBy cfg codec w ≠ .refused .oddPairAddress := by
  intro h
  cases codec with
  | rawUnsigned | rawSigned | bitfield => cases h
  | scaled k kind =>
    simp only [decodeBy, decodeScaled] at h
    split_ifs at h
    cases hnum : cfg.numerics with
    | exact => simp [hnum] at h
    | binary64 =>
      simp only [hnum] at h
      exact requireFinite_ne_oddPairAddress _ h
  | mode =>
    have hconf := decodeMode_conforming w
    rw [show decodeMode w = .refused .oddPairAddress from h] at hconf
    cases hconf

/-- `ENC.SCALED` gives a pair or refuses a value that is no number (R141, R149). -/
theorem encodeScaled_cases (numerics : Numerics) (tie : RoundTie) (k : Rat) (kind : Kind) (p : Phys) :
    (∃ w, encodeScaled numerics tie k kind p = .ok w) ∨ encodeScaled numerics tie k kind p = .refused .nonFinite := by
  cases p with
  | finite q =>
    cases numerics with
    | exact => exact .inl ⟨_, rfl⟩
    | binary64 =>
      by_cases hq : ∃ x, toDouble q = .finite x
      · obtain ⟨x, hx⟩ := hq
        exact .inl ⟨_, encodeScaled_binary64 hx tie k kind⟩
      · exact .inr (encodeScaled_binary64_refused (fun x hx => hq ⟨x, hx⟩) tie k kind)
  | posInf | negInf | nan => exact .inr rfl

/-- `ENCODE` gives a pair or refuses the value; it never refuses an address, being given none (R161). -/
theorem encodeBy_cases (cfg : Config) (codec : Codec) (v : Value) :
    (∃ w, encodeBy cfg codec v = .ok w) ∨ ∃ q, q ≠ .oddPairAddress ∧ encodeBy cfg codec v = .refused q := by
  unfold encodeBy
  split
  case h_1 | h_2 | h_4 => exact .inl ⟨_, rfl⟩
  case h_3 k kind p =>
    exact (encodeScaled_cases cfg.numerics cfg.roundTie k kind p).imp_right fun h => ⟨.nonFinite, by simp, h⟩
  case h_5 b =>
    by_cases hb : b.length = 32
    · exact .inl ⟨_, if_pos hb⟩
    · exact .inr ⟨.bitsLength, by simp, if_neg hb⟩
  case h_6 => exact .inr ⟨.valueTagMismatch, by simp, rfl⟩

/-- A value whose tag does not fit is refused for that, whatever it carries (R161, R214). -/
theorem encodeBy_of_not_fits (cfg : Config) {codec : Codec} {v : Value} (h : v.fits codec = false) :
    encodeBy cfg codec v = .refused .valueTagMismatch := by
  unfold encodeBy
  split
  case h_6 => rfl
  all_goals cases h

/-- A well-formed value that fits is encoded, under binary64 too where a physical value has a finite double (R149, R161). -/
theorem encodeBy_ok_of_fits {cfg : Config} {codec : Codec} {v : Value} (hfits : v.fits codec = true)
    (hv : v.wellFormed = true)
    (hdouble : cfg.numerics = .binary64 → ∀ q, v = .phys (.finite q) → ∃ x, toDouble q = .finite x) :
    ∃ w, encodeBy cfg codec v = .ok w := by
  cases v <;> cases codec <;> simp only [Value.fits, Bool.false_eq_true] at hfits
  case uint.rawUnsigned | sint.rawSigned | mode.mode => exact ⟨_, rfl⟩
  case phys.scaled p k kind =>
    cases p with
    | finite q =>
      rw [encodeBy]
      cases hnum : cfg.numerics with
      | exact => exact ⟨_, rfl⟩
      | binary64 =>
        obtain ⟨x, hx⟩ := hdouble hnum q rfl
        exact ⟨_, encodeScaled_binary64 hx _ k kind⟩
    | posInf | negInf | nan => cases hv
  case bits.bitfield b => exact ⟨_, if_pos (beq_iff_eq.1 hv)⟩

/-! ### What a typed access does -/

/-- A typed read looks up the operand it names its Register by (R210). -/
theorem lookupKey_of_typedReadKey {i : Instr} {key : RegKey} (h : typedReadKey i = some key) :
    lookupKey i = some key := by
  cases i with
  | csrReadName | csrReadAddr | csrReadNum => exact h
  | _ => cases h

/-- A typed write looks up the operand it names its Register by (R210). -/
theorem lookupKey_of_typedWrite {i : Instr} {key : RegKey} {v : Value} (h : typedWrite i = some (key, v)) :
    lookupKey i = some key := by
  cases i with
  | csrWriteName | csrWriteAddr | csrWriteNum => cases h; rfl
  | _ => cases h

/-- The typed reads are one operation on the operand each names its Register by (R187, R189, R191). -/
theorem exec_of_typedReadKey {i : Instr} {key : RegKey} (h : typedReadKey i = some key) (s : State) :
    exec i s = replyCsrRead s key := by
  cases i with
  | csrReadName | csrReadAddr | csrReadNum => cases h; rfl
  | _ => cases h

/-- The typed writes are one operation on the operand each names its Register by (R188, R190, R192). -/
theorem exec_of_typedWrite {i : Instr} {key : RegKey} {v : Value} (h : typedWrite i = some (key, v)) (s : State) :
    exec i s = s.replyWrite (csrWrite s key v) := by
  cases i with
  | csrWriteName | csrWriteAddr | csrWriteNum => cases h; rfl
  | _ => cases h

section
variable {s : State} {i : Instr} {key : RegKey} {r : Register} {v : Value}

/-- A typed read whose lookup finds a Register answers what `DECODE` makes of the cell's words (R187). -/
theorem exec_typedRead_found (hs : s.Inv) (hr : r ∈ s.cfg.table) (hi : typedReadKey i = some key)
    (he : resolve s.cfg.table key = .ok r) {u : Raw} (hu : s.cell r.num = some u) :
    exec i s = .next { s with result := some ((decodeBy s.cfg r.codec (wordsOf u)).map .value) } := by
  rw [exec_of_typedReadKey hi, replyCsrRead, csrRead, he, Answer.thenAccess_ok, readPort_low s r u hs hr hu]
  exact State.replyRead_ok s _

/-- A typed write whose lookup finds a Register and whose value is encoded writes the pair's value (R188). -/
theorem exec_typedWrite_encoded (hs : s.Inv) (hr : r ∈ s.cfg.table) (hi : typedWrite i = some (key, v))
    (he : resolve s.cfg.table key = .ok r) {w : WordPair} (hw : encodeBy s.cfg r.codec v = .ok w) :
    exec i s = .next (s.written r.num (rawOf w)) := by
  rw [exec_of_typedWrite hi, csrWrite, he, Answer.thenAccess_ok, hw, Answer.thenAccess_ok, writePort_low s r w hs hr,
    State.replyWrite_ok]

/-- A typed write whose lookup finds a Register and whose value `ENCODE` refuses is refused for that (R188, R216). -/
theorem exec_typedWrite_refused (hi : typedWrite i = some (key, v)) (he : resolve s.cfg.table key = .ok r) {q : Reason}
    (hq : encodeBy s.cfg r.codec v = .refused q) : exec i s = .next { s with result := some (.refused q) } := by
  rw [exec_of_typedWrite hi, csrWrite, he, Answer.thenAccess_ok, hq, Answer.thenAccess_refused,
    State.replyWrite_refused]

end

/-! ### Typed reads and writes -/

/-- The pair whose words are the remainder and the quotient by 2^16 is the value's pair (R52). -/
theorem wordsOf_eq_of_toNat {u : Raw} {lo hi : Word} (hlo : lo.toNat = u.toNat % 65536)
    (hhi : hi.toNat = u.toNat / 65536) : wordsOf u = { lo, hi } := by
  rw [wordsOf, WordPair.mk.injEq]
  exact ⟨BitVec.eq_of_toNat_eq ((lowWord_toNat u).trans hlo.symm),
    BitVec.eq_of_toNat_eq ((highWord_toNat u).trans hhi.symm)⟩

/-- Settles O35: every operand that names the Register leads to the same cell. -/
theorem typedReadDecodesTheCell : Obligations.TypedReadDecodesTheCell := by
  refine fun s hs => ⟨fun _ _ _ => ⟨rfl, rfl, rfl⟩, fun r hr u lo hi hu hlo hhi => ?_, fun i key hi hnone =>
    exec_of_resolve_fail s (lookupKey_of_typedReadKey hi) (resolve_fail_of_ne_ok hnone)⟩
  have hread {i : Instr} {key : RegKey} (hkey : Names r key) (hi : typedReadKey i = some key) :=
    exec_typedRead_found hs hr hi (resolve_of_names hs.wf_table hr hkey) hu
  rw [wordsOf_eq_of_toNat hlo hhi] at hread
  exact ⟨_, exec_decode_words r { lo, hi } s, hread (.inl rfl) rfl, hread (.inr (.inl rfl)) rfl,
    hread (.inr (.inr (.inl rfl))) rfl, hread (.inr (.inr (.inr rfl))) rfl⟩

/-- Settles O36: every operand that names the Register leads to the same cell, which takes the encoded pair. -/
theorem typedWriteStoresTheEncoding : Obligations.TypedWriteStoresTheEncoding := by
  intro s r v i hs hr hfits hv hdouble hi
  obtain ⟨key, hkey, hi⟩ : ∃ key, Names r key ∧ typedWrite i = some (key, v) := by
    rcases hi with rfl | rfl | rfl | rfl
    · exact ⟨_, .inl rfl, rfl⟩
    · exact ⟨_, .inr (.inl rfl), rfl⟩
    · exact ⟨_, .inr (.inr (.inl rfl)), rfl⟩
    · exact ⟨_, .inr (.inr (.inr rfl)), rfl⟩
  obtain ⟨w, hw⟩ := encodeBy_ok_of_fits hfits hv hdouble
  obtain ⟨hcell, hcells, hwords, hframe⟩ := hs.replacesCell_written hr (rawOf w)
  refine ⟨fun _ _ _ => ⟨rfl, rfl, rfl⟩, w.lo, w.hi, _, ?_,
    exec_typedWrite_encoded hs hr hi (resolve_of_names hs.wf_table hr hkey) hw, hcell, hcells, hwords, hframe⟩
  rw [exec_encode, hw]
  rfl

/-- Passing a value on changes no refusal (R98). -/
theorem Answer.eq_refused_of_map {α β : Type} {x : Answer α} {f : α → β} {q : Reason} (h : x.map f = .refused q) :
    x = .refused q := by
  cases x with
  | ok v | fail e => cases h
  | refused q' => exact congrArg Answer.refused (Answer.refused.inj h)

/-- Settles O37. -/
theorem typedWriteTurnedAwayWritesNothing : Obligations.TypedWriteTurnedAwayWritesNothing := by
  refine fun s i key v hi =>
    ⟨fun hnone => exec_of_resolve_fail s (lookupKey_of_typedWrite hi) (resolve_fail_of_ne_ok hnone),
      fun r he hfits => exec_typedWrite_refused hi he (encodeBy_of_not_fits s.cfg hfits),
      fun r q he henc => exec_typedWrite_refused hi he ?_⟩
  rw [exec_encode, Host.Outcome.next.injEq] at henc
  exact Answer.eq_refused_of_map (Option.some.inj (congrArg State.result henc))

/-! ### The odd-pair policy -/

/-- The state with another `ODD_PAIR_POLICY` (R56). -/
def State.withOddPair (s : State) (p : OddPairPolicy) : State := { s with cfg := { s.cfg with oddPair := p } }

/-- The operation gives, under every policy, the same outcome, which is no `OddPairAddress`, and the same storage. -/
def IgnoresOddPairPolicy (s : State) (i : Instr) : Prop :=
  ∃ cells ans, ans ≠ .refused .oddPairAddress ∧
    ∀ p, exec i (s.withOddPair p) = .next { s.withOddPair p with cells := cells, result := some ans }

/-- A lookup by the table alone fails alike under every policy (R210). -/
theorem ignoresOddPairPolicy_of_resolve_fail {s : State} {i : Instr} {key : RegKey} (hkey : lookupKey i = some key)
    (he : resolve s.cfg.table key = .fail (.unknownRegister key)) : IgnoresOddPairPolicy s i :=
  ⟨s.cells, _, by simp, fun p => exec_of_resolve_fail (s.withOddPair p) hkey he⟩

/-- A typed read goes to the low word's address, which passes the check under every policy, and decodes by the numerics
alone (R193). -/
theorem ignoresOddPairPolicy_of_typedReadKey {s : State} {i : Instr} {key : RegKey} (hs : s.Inv)
    (hi : typedReadKey i = some key) : IgnoresOddPairPolicy s i := by
  rcases resolve_cases s.cfg.table key with ⟨r, hr, he⟩ | he
  · obtain ⟨u, hu⟩ := hs.cell_of_mem hr
    refine ⟨s.cells, (decodeBy s.cfg r.codec (wordsOf u)).map .value, fun h => ?_,
      fun p => exec_typedRead_found (s := s.withOddPair p) hs hr hi he hu⟩
    exact decodeBy_ne_oddPairAddress s.cfg r.codec (wordsOf u) (Answer.eq_refused_of_map h)
  · exact ignoresOddPairPolicy_of_resolve_fail (lookupKey_of_typedReadKey hi) he

/-- A typed write encodes by the numerics and the tie rule, and goes to the low word's address, which passes the check under
every policy (R193). -/
theorem ignoresOddPairPolicy_of_typedWrite {s : State} {i : Instr} {key : RegKey} {v : Value} (hs : s.Inv)
    (hi : typedWrite i = some (key, v)) : IgnoresOddPairPolicy s i := by
  rcases resolve_cases s.cfg.table key with ⟨r, hr, he⟩ | he
  · rcases encodeBy_cases s.cfg r.codec v with ⟨w, henc⟩ | ⟨q, hq, henc⟩
    · exact ⟨(s.setCell r.num (rawOf w)).cells, .ok .done, by simp,
        fun p => exec_typedWrite_encoded (s := s.withOddPair p) hs hr hi he henc⟩
    · exact ⟨s.cells, .refused q, fun h => hq (Answer.refused.inj h),
        fun p => exec_typedWrite_refused (s := s.withOddPair p) hi he henc⟩
  · exact ignoresOddPairPolicy_of_resolve_fail (lookupKey_of_typedWrite hi) he

/-- Settles O38: among the policies that give the same outcome and storage is the one in force. -/
theorem typedAccessNeverMeetsOddPairPolicy : Obligations.TypedAccessNeverMeetsOddPairPolicy := by
  intro s t i hs hi ht
  obtain ⟨cells, ans, hans, hall⟩ : IgnoresOddPairPolicy s i := by
    rcases hi with hread | hwrite
    · obtain ⟨key, hkey⟩ := Option.ne_none_iff_exists'.1 hread
      exact ignoresOddPairPolicy_of_typedReadKey hs hkey
    · obtain ⟨⟨key, v⟩, hkey⟩ := Option.ne_none_iff_exists'.1 hwrite
      exact ignoresOddPairPolicy_of_typedWrite hs hkey
  obtain rfl := Host.Outcome.next.inj (ht.symm.trans (hall s.cfg.oddPair))
  exact ⟨fun h => hans (Option.some.inj h), hall⟩

/-! ### Write, then read -/

/-- A typed read after a typed write of the same Register decodes the pair that was encoded (R62, R194). -/
theorem exec_csrWriteName_csrReadName {s : State} (hs : s.Inv) {r : Register} (hr : r ∈ s.cfg.table) {v : Value}
    {w : WordPair} (hw : encodeBy s.cfg r.codec v = .ok w) :
    ∃ t, exec (.csrWriteName r.name v) s = .next t ∧
      exec (.csrReadName r.name) t = .next { t with result := some ((decodeBy s.cfg r.codec w).map .value) } := by
  have he : resolve s.cfg.table (.name r.name) = .ok r := resolve_name_of_mem hs.wf_table hr
  have hread := exec_typedRead_found (i := .csrReadName r.name) (hs.written r.num (rawOf w)) hr rfl he
    (hs.replacesCell_written hr (rawOf w)).cell
  rw [wordsOf_rawOf] at hread
  exact ⟨_, exec_typedWrite_encoded hs hr rfl he hw, hread⟩

/-- Settles O39: what comes back is the pair written, decoded where the read is typed. -/
theorem writeThenReadReturnsWhatWasWritten : Obligations.WriteThenReadReturnsWhatWasWritten := by
  refine fun s r hs hr => ⟨fun lo hi => ?_, fun v hv => ?_, fun k kind q hcodec hk hexact hrange => ?_⟩
  · have hcell := (hs.replacesCell_written hr (rawOf { lo, hi })).cell
    have hread := exec_readWords_of_readPort (readPort_low _ r _ (hs.written r.num (rawOf { lo, hi })) hr hcell)
    rw [wordsOf_rawOf] at hread
    exact ⟨_, exec_writeWords_written hs hr (.inl rfl) (pairOperand_words lo hi), hread⟩
  · obtain ⟨w, henc, hdec⟩ := decodeBy_encodeBy (cfg := s.cfg) hv
    obtain ⟨t, hwrite, hread⟩ := exec_csrWriteName_csrReadName hs hr henc
    exact ⟨t, hwrite, by rw [hread, hdec, Answer.map_ok]⟩
  · have henc : encodeBy s.cfg r.codec (.phys (.finite q)) = .ok (split32 (roundTie s.cfg.roundTie (q * k))) := by
      rw [hcodec, encodeBy, hexact, encodeScaled_exact hk]
    obtain ⟨t, hwrite, hread⟩ := exec_csrWriteName_csrReadName hs hr henc
    refine ⟨t, _, hwrite, ?_, abs_roundTie_div_sub_le s.cfg.roundTie hk q⟩
    rw [hread, hcodec, decodeBy, hexact, decodeScaled_exact hk, rawOf_split32, readRaw_wrap32 hrange, Answer.map_ok]

end Sys2Proof.Machine
end

section
/-! PROOFS. Failures and refusals: what can fail an operation (R210, R211), what a failed one leaves unchanged (R217), and
that in canonical form every step completes (R213). -/

namespace Sys2Proof.Machine

/-! ### What a failed operation leaves unchanged -/

/-- Settles O43: an operation that does not deliver an outcome alone is a write that took effect, and delivers `done`. -/
theorem failedTransactionChangesNothingElse : Obligations.FailedTransactionChangesNothingElse := by
  intro i s t h hnotOk
  rcases exec_cases h with ⟨ans, rfl⟩ | ⟨n, u, -, rfl⟩
  · rw [State.deliver_result, State.deliver_eq]
  · exact absurd (State.deliver_result _ _) (hnotOk .done)

/-- A state in which an operation fails differs from the one before in the result port alone (R217). -/
theorem eq_of_exec_fails {i : Instr} {s t : State} {f : Failure} (h : exec i s = .next t)
    (hf : t.result = some (.fail f)) : t = { s with result := t.result } :=
  failedTransactionChangesNothingElse i s t h (by simp [hf])

/-! ### The port and the typed accesses in any state

These do not take the storage to be in canonical form: where a cell is missing, the access ends in the fault. -/

/-- The address check passes or refuses (R56). -/
theorem checkPairAddress_cases (cfg : Config) (r : Register) (a : Int) :
    checkPairAddress cfg r a = .ok () ∨ ∃ q, checkPairAddress cfg r a = .refused q := by
  unfold checkPairAddress
  split_ifs
  · exact .inr ⟨_, rfl⟩
  · exact .inl rfl

/-- A Register that a lookup finds is one of the table (R171 to R173). -/
theorem mem_of_resolve_ok {T : List Register} {key : RegKey} {r : Register} (h : resolve T key = .ok r) : r ∈ T := by
  rcases resolve_cases T key with ⟨r', hr', he⟩ | he
  · exact Answer.ok.inj (he.symm.trans h) ▸ hr'
  · cases he.symm.trans h

/-- A lookup that fails records its operand as given (R210). -/
theorem eq_unknownRegister_of_resolve_fail {T : List Register} {key : RegKey} {f : Failure}
    (h : resolve T key = .fail f) : f = .unknownRegister key := by
  rcases resolve_cases T key with ⟨r, -, he⟩ | he
  · cases he.symm.trans h
  · exact Answer.fail.inj (h.symm.trans he)

/-- In any table the lookup at a Register's low address finds a Register of its number (R172). -/
theorem exists_resolve_lowAddr {T : List Register} {r : Register} (hr : r ∈ T) :
    ∃ r', resolve T (.addr (lowAddr r)) = .ok r' ∧ r'.num = r.num := by
  cases hf : registerAt T (lowAddr r) with
  | none => exact absurd ⟨le_refl _, by simp [lowAddr]⟩ (registerAt_none hf r hr)
  | some r' =>
    have he : resolve T (.addr (lowAddr r)) = .ok r' := by simp [resolve, hf]
    exact ⟨r', he, num_of_resolve_lowAddr he⟩

/-- Once the lookup and the address check pass, a read turns on the Register's cell alone (R185). -/
theorem readPort_of_allowed {s : State} {a : Int} {r : Register} (he : resolve s.cfg.table (.addr a) = .ok r)
    (hc : checkPairAddress s.cfg r a = .ok ()) :
    readPort s a = (s.cell r.num).elim (.error (.missingCell r.num)) fun u => .ok (.ok (wordsOf u)) := by
  cases hv : s.cell r.num <;> simp [readPort, he, hc, hv]

/-- A typed read whose lookup finds a Register decodes the Register's cell (R187, R193). -/
theorem csrRead_of_resolve_ok {s : State} {key : RegKey} {r : Register} (he : resolve s.cfg.table key = .ok r) :
    csrRead s key =
      (s.cell r.num).elim (.error (.missingCell r.num)) fun u => .ok (decodeBy s.cfg r.codec (wordsOf u)) := by
  obtain ⟨r', hlow, hnum⟩ := exists_resolve_lowAddr (mem_of_resolve_ok he)
  have haddr : lowAddr r = lowAddr r' := by rw [lowAddr, lowAddr, hnum]
  rw [csrRead, he, Answer.thenAccess_ok, readPort_of_allowed hlow (haddr ▸ checkPairAddress_low s.cfg r'), hnum]
  cases s.cell r.num <;> rfl

/-- A write whose lookup finds a Register is refused, or turns on the Register's cell alone (R186). -/
theorem writePort_of_resolve_ok {s : State} {a : Int} {r : Register} {words : Answer WordPair}
    (he : resolve s.cfg.table (.addr a) = .ok r) (hwords : ∀ f, words ≠ .fail f) :
    (∃ q, writePort s a words = .ok (.refused q)) ∨
      ∃ w, writePort s a words =
        (s.cell r.num).elim (.error (.missingCell r.num)) fun _ => .ok (.ok (s.setCell r.num (rawOf w))) := by
  rcases checkPairAddress_cases s.cfg r a with hc | ⟨q, hc⟩
  · cases words with
    | ok w => exact .inr ⟨w, writePort_of_checked w he hc⟩
    | fail f => exact absurd rfl (hwords f)
    | refused q => exact .inl ⟨q, writePort_of_wordsRefused he hc q⟩
  · cases words with
    | ok w => exact .inl ⟨q, writePort_of_addressRefused he hc w⟩
    | fail f => exact absurd rfl (hwords f)
    | refused q' => exact .inl ((writePort_of_bothRefused he hc q').elim (⟨q, ·⟩) (⟨q', ·⟩))

/-! ### What does not fail -/

/-- Word operands are a pair or are refused (R95). -/
theorem pairOperand_ne_fail (lo hi : Int) (f : Failure) : pairOperand lo hi ≠ .fail f := by
  by_cases h : inU16 lo ∧ inU16 hi
  · obtain ⟨w, hw, -, -⟩ := pairOperand_ok lo hi h.1 h.2
    simp [hw]
  · simp [pairOperand_refused lo hi h]

/-- `ENCODE` fails for no codec and no value (R161, R211). -/
theorem encodeBy_ne_fail (cfg : Config) (codec : Codec) (v : Value) (f : Failure) : encodeBy cfg codec v ≠ .fail f := by
  rcases encodeBy_cases cfg codec v with ⟨w, h⟩ | ⟨q, -, h⟩ <;> simp [h]

/-- `DEC.SCALED` decodes or refuses (R140, R149). -/
theorem decodeScaled_ne_fail (numerics : Numerics) (k : Rat) (kind : Kind) (w : WordPair) (f : Failure) :
    decodeScaled numerics k kind w ≠ .fail f := by
  unfold decodeScaled
  split_ifs with hk
  · cases numerics with
    | exact => exact nofun
    | binary64 => cases hq : divDouble (readRaw kind (rawOf w)) (toDouble k) <;> simp [hq, requireFinite]
  · exact nofun

/-- Of the codecs only `Mode` fails to decode (R160, R211). -/
theorem mode_of_decodeBy_fail {cfg : Config} {codec : Codec} {w : WordPair} {f : Failure}
    (h : decodeBy cfg codec w = .fail f) : codec = .mode ∧ decodeMode w = .fail f := by
  cases codec with
  | mode => exact ⟨rfl, h⟩
  | scaled k kind => exact absurd h (decodeScaled_ne_fail cfg.numerics k kind w f)
  | rawUnsigned | rawSigned | bitfield => cases h

/-! ### Where a failure comes from -/

/-- Passing a value on changes no failure (R98). -/
theorem Answer.eq_fail_of_map {α β : Type} {x : Answer α} {g : α → β} {f : Failure} (h : x.map g = .fail f) :
    x = .fail f := by
  cases x with
  | ok v | refused q => cases h
  | fail f' => exact congrArg Answer.fail (Answer.fail.inj h)

/-- A sequence that fails fails in its first step, or in the step after it (R98, R216). -/
theorem Answer.fail_of_andThen {α β : Type} {x : Answer α} {g : α → Answer β} {f : Failure} (h : x.andThen g = .fail f) :
    x = .fail f ∨ ∃ v, x = .ok v ∧ g v = .fail f := by
  cases x with
  | ok v => exact .inr ⟨v, rfl, h⟩
  | fail f' => exact .inl (congrArg Answer.fail (Answer.fail.inj h))
  | refused q => cases h

/-- A read of the port that fails failed to find a Register (R185, R210). -/
theorem resolve_fail_of_readPort_fail {s : State} {a : Int} {f : Failure} (h : readPort s a = .ok (.fail f)) :
    resolve s.cfg.table (.addr a) = .fail f := by
  rcases resolve_cases s.cfg.table (.addr a) with ⟨r, -, he⟩ | he
  · rcases checkPairAddress_cases s.cfg r a with hc | ⟨q, hc⟩
    · rw [readPort_of_allowed he hc] at h
      cases hv : s.cell r.num <;> simp [hv] at h
    · cases (readPort_of_addressRefused he hc).symm.trans h
  · simpa [readPort, he] using h

/-- A write to the port that fails failed to find a Register (R186, R210). -/
theorem resolve_fail_of_writePort_fail {s : State} {a : Int} {words : Answer WordPair} {f : Failure}
    (hwords : ∀ f, words ≠ .fail f) (h : writePort s a words = .ok (.fail f)) :
    resolve s.cfg.table (.addr a) = .fail f := by
  rcases resolve_cases s.cfg.table (.addr a) with ⟨r, -, he⟩ | he
  · rcases writePort_of_resolve_ok he hwords with ⟨q, hq⟩ | ⟨w, hw⟩
    · cases hq.symm.trans h
    · rw [hw] at h
      cases hv : s.cell r.num <;> simp [hv] at h
  · simpa [writePort, he] using h

/-- A typed write that fails failed to find a Register (R188, R210). -/
theorem resolve_fail_of_csrWrite_fail {s : State} {key : RegKey} {v : Value} {f : Failure}
    (h : csrWrite s key v = .ok (.fail f)) : resolve s.cfg.table key = .fail f := by
  rcases resolve_cases s.cfg.table key with ⟨r, hr, he⟩ | he
  · rw [csrWrite, he, Answer.thenAccess_ok] at h
    rcases encodeBy_cases s.cfg r.codec v with ⟨w, henc⟩ | ⟨q, -, henc⟩
    · rw [henc, Answer.thenAccess_ok] at h
      obtain ⟨r', hlow, -⟩ := exists_resolve_lowAddr hr
      cases hlow.symm.trans (resolve_fail_of_writePort_fail (by simp) h)
    · simp [henc] at h
  · simpa [csrWrite, he] using h

/-- The outcome delivers the failure `f` to the caller (R12, R217). -/
def FailsWith (o : Host.Outcome State Fault Refusal) (f : Failure) : Prop :=
  ∃ t, o = .next t ∧ t.result = some (.fail f)

section
variable {s : State} {f : Failure}

theorem FailsWith.of_reply {ans : Answer Result} (h : FailsWith (s.reply ans) f) : ans = .fail f := by
  obtain ⟨t, ht, hf⟩ := h
  rw [State.reply_eq_next] at ht
  obtain rfl := Host.Outcome.next.inj ht
  exact Option.some.inj hf

theorem FailsWith.of_replyRead {x : Access Result} (h : FailsWith (s.replyRead x) f) : x = .ok (.fail f) := by
  obtain ⟨t, ht, hf⟩ := h
  obtain ⟨ans, rfl, rfl⟩ := State.replyRead_next ht
  rw [State.deliver_result] at hf
  rw [Option.some.inj hf]

theorem FailsWith.of_replyWrite {x : Access State} (h : FailsWith (s.replyWrite x) f) : x = .ok (.fail f) := by
  obtain ⟨t, ht, hf⟩ := h
  rcases State.replyWrite_next ht with ⟨s', rfl, rfl⟩ | ⟨f', rfl, rfl⟩ | ⟨q, rfl, rfl⟩ <;>
    rw [State.deliver_result] at hf <;> cases hf
  rfl

/-- An operation that encodes does not fail (R211). -/
theorem not_failsWith_encodeBy (codec : Codec) (v : Value) : ¬ FailsWith (replyWords s (encodeBy s.cfg codec v)) f :=
  fun h => encodeBy_ne_fail s.cfg codec v f (Answer.eq_fail_of_map h.of_reply)

/-- A lookup operation fails as its lookup does. -/
theorem FailsWith.of_replyLookup {key : RegKey} (h : FailsWith (replyLookup s key) f) :
    resolve s.cfg.table key = .fail f :=
  Answer.eq_fail_of_map h.of_reply

/-- An operation that decodes two words fails only in the `Mode` codec (R211). -/
theorem FailsWith.of_replyDecoded {lo hi : Int} {codec : Codec}
    (h : FailsWith (replyDecoded s lo hi (decodeBy s.cfg codec)) f) :
    codec = .mode ∧ ∃ w, pairOperand lo hi = .ok w ∧ decodeMode w = .fail f := by
  rcases Answer.fail_of_andThen (Answer.eq_fail_of_map h.of_reply) with hpair | ⟨w, hw, hdec⟩
  · exact absurd hpair (pairOperand_ne_fail lo hi f)
  · obtain ⟨hcodec, hmode⟩ := mode_of_decodeBy_fail hdec
    exact ⟨hcodec, w, hw, hmode⟩

/-- `READWORDS` fails as its lookup does (R185). -/
theorem FailsWith.of_readWords {a : Int} (h : FailsWith (exec (.readWords a) s) f) :
    resolve s.cfg.table (.addr a) = .fail f := by
  have hread : Access.andThen (readPort s a) (fun w => .ok (pairResult w)) = .ok (.fail f) := FailsWith.of_replyRead h
  rcases hport : readPort s a with e | ans
  · simp [hport] at hread
  · rw [hport, Access.andThen_ok, Except.ok.injEq] at hread
    exact resolve_fail_of_readPort_fail (hport.trans (congrArg Except.ok (Answer.eq_fail_of_map hread)))

/-- A typed read fails as its lookup does, or in the decode of a Mode register's cell (R187, R211). -/
theorem FailsWith.of_replyCsrRead {key : RegKey} (h : FailsWith (replyCsrRead s key) f) :
    resolve s.cfg.table key = .fail f ∨
      ∃ r u, resolve s.cfg.table key = .ok r ∧ r.codec = .mode ∧ s.cell r.num = some u ∧
        decodeMode (wordsOf u) = .fail f := by
  have hread := FailsWith.of_replyRead h
  rcases resolve_cases s.cfg.table key with ⟨r, -, he⟩ | he
  · rw [csrRead_of_resolve_ok he] at hread
    cases hu : s.cell r.num with
    | none => simp [hu] at hread
    | some u =>
      rw [hu, Option.elim_some, Access.andThen_ok, Except.ok.injEq] at hread
      obtain ⟨hcodec, hmode⟩ := mode_of_decodeBy_fail (Answer.eq_fail_of_map hread)
      exact .inr ⟨r, u, he, hcodec, hu, hmode⟩
  · exact .inl (by simpa [csrRead, he] using hread)

end

/-! ### The decode of a mode -/

/-- The pair of two word operands spells their integer (R87, R95). -/
theorem rawOf_toNat_of_pairOperand {lo hi : Int} {w : WordPair} (h : pairOperand lo hi = .ok w) :
    ((rawOf w).toNat : Int) = pairValue lo hi := by
  by_cases hU16 : inU16 lo ∧ inU16 hi
  · obtain ⟨w', hw', rfl, rfl⟩ := pairOperand_ok lo hi hU16.1 hU16.2
    obtain rfl : w' = w := Answer.ok.inj (hw'.symm.trans h)
    exact rawOf_toNat_eq_pairValue w'
  · cases (pairOperand_refused lo hi hU16).symm.trans h

/-- Word operands that spell a raw value are its pair (R87, R95). -/
theorem pairOperand_eq_wordsOf {lo hi : Int} {raw : Raw} (hlo : inU16 lo) (hhi : inU16 hi)
    (h : pairValue lo hi = raw.toNat) : pairOperand lo hi = .ok (wordsOf raw) := by
  obtain ⟨w, hw, -, -⟩ := pairOperand_ok lo hi hlo hhi
  have hraw : rawOf w = raw := BitVec.eq_of_toNat_eq (by exact_mod_cast (rawOf_toNat_of_pairOperand hw).trans h)
  rw [hw, ← hraw, wordsOf_rawOf]

/-- A raw value that is the number of no mode (R145). -/
def IsNoMode (raw : Raw) : Prop := raw.toNat ≠ 0 ∧ raw.toNat ≠ 1 ∧ raw.toNat ≠ 2 ∧ raw.toNat ≠ 11

/-- `DEC.MODE` fails exactly on a raw value that is no mode, and records it (R145, R211). -/
theorem decodeMode_eq_fail_iff {w : WordPair} {f : Failure} :
    decodeMode w = .fail f ↔ IsNoMode (rawOf w) ∧ f = .invalidMode (rawOf w) := by
  simp only [decodeMode, IsNoMode]
  split_ifs with h0 h1 h2 h11
  · simp [h0]
  · simp [h1]
  · simp [h2]
  · simp [h11]
  · simp [h0, h1, h2, h11, eq_comm]

/-- The operation decodes the pair `w` as a mode: `DEC.MODE` of it, `DECODE` of it on a Mode register, or a typed read of a
Mode register whose cell it spells (R145, R160, R187). -/
inductive DecodesMode (s : State) : Instr → WordPair → Prop
  | decMode {lo hi : Int} {w : WordPair} (hw : pairOperand lo hi = .ok w) : DecodesMode s (.decMode lo hi) w
  | decode {r : Register} {lo hi : Int} {w : WordPair} (hr : r.codec = .mode) (hw : pairOperand lo hi = .ok w) :
      DecodesMode s (.decode r lo hi) w
  | typedRead {i : Instr} {key : RegKey} {r : Register} {u : Raw} (hkey : typedReadKey i = some key)
      (he : resolve s.cfg.table key = .ok r) (hr : r.codec = .mode) (hu : s.cell r.num = some u) :
      DecodesMode s i (wordsOf u)

/-- Such an operation answers as the `Mode` decoder does and changes nothing else. -/
theorem DecodesMode.exec_eq {s : State} {i : Instr} {w : WordPair} (h : DecodesMode s i w) :
    exec i s = .next { s with result := some ((decodeMode w).map .value) } := by
  have hpair {lo hi : Int} (hw : pairOperand lo hi = .ok w) :
      replyDecoded s lo hi decodeMode = .next { s with result := some ((decodeMode w).map .value) } := by
    rw [replyDecoded, hw, Answer.andThen_ok, State.reply_eq_next]
  cases h with
  | decMode hw => exact hpair hw
  | @decode r lo hi _ hr hw =>
    rw [exec, execDecode, hr]
    exact hpair hw
  | typedRead hkey he hr hu =>
    rw [exec_of_typedReadKey hkey, replyCsrRead, csrRead_of_resolve_ok he, hu, hr]
    exact State.replyRead_ok s _

/-- An operation that decodes as a mode a raw value that is none fails with it (R211). -/
theorem DecodesMode.exec_fails {s : State} {i : Instr} {raw : Raw} (h : DecodesMode s i (wordsOf raw))
    (hraw : IsNoMode raw) : exec i s = .next { s with result := some (.fail (.invalidMode raw)) } := by
  have hmode : decodeMode (wordsOf raw) = .fail (.invalidMode raw) := by
    rw [decodeMode_eq_fail_iff, rawOf_wordsOf]
    exact ⟨hraw, rfl⟩
  rw [h.exec_eq, hmode, Answer.map_fail]

/-! ### The two failures -/

/-- What can fail an operation: its lookup finds nothing (R210), or it decodes as a mode a value that is none (R211). -/
inductive FailureSource (s : State) (i : Instr) (f : Failure) : Prop
  | lookup {key : RegKey} (hkey : lookupKey i = some key) (he : resolve s.cfg.table key = .fail f)
  | mode {w : WordPair} (hw : DecodesMode s i w) (hmode : decodeMode w = .fail f)

/-- A typed read fails in its lookup, or in the decode of a Mode register's cell (R187). -/
theorem FailsWith.of_typedRead {i : Instr} {s : State} {key : RegKey} {f : Failure} (hkey : typedReadKey i = some key)
    (h : FailsWith (exec i s) f) : FailureSource s i f := by
  rw [exec_of_typedReadKey hkey] at h
  rcases h.of_replyCsrRead with he | ⟨r, u, he, hcodec, hu, hmode⟩
  · exact .lookup (lookupKey_of_typedReadKey hkey) he
  · exact .mode (.typedRead hkey he hcodec hu) hmode

/-- In any state an operation fails from one of the two sources. -/
theorem FailsWith.of_exec {i : Instr} {s : State} {f : Failure} (h : FailsWith (exec i s) f) : FailureSource s i f := by
  cases i with
  | explode x n =>
    rw [exec, execExplode] at h
    split_ifs at h <;> cases h.of_reply
  | implode | addr | toWordsU | toWordsS => cases FailsWith.of_reply h
  | fromWordsU lo hi | fromWordsS lo hi =>
    exact absurd (Answer.eq_fail_of_map (FailsWith.of_reply h)) (pairOperand_ne_fail lo hi f)
  | encRawU n => exact absurd h (not_failsWith_encodeBy .rawUnsigned (.uint n))
  | encRawS n => exact absurd h (not_failsWith_encodeBy .rawSigned (.sint n))
  | encScaled k kind p => exact absurd h (not_failsWith_encodeBy (.scaled k kind) (.phys p))
  | encMode m => exact absurd h (not_failsWith_encodeBy .mode (.mode m))
  | encBits b => exact absurd h (not_failsWith_encodeBy .bitfield (.bits b))
  | encode r v => exact absurd h (not_failsWith_encodeBy r.codec v)
  | decRawU => cases (FailsWith.of_replyDecoded (codec := .rawUnsigned) h).1
  | decRawS => cases (FailsWith.of_replyDecoded (codec := .rawSigned) h).1
  | decScaled k kind => cases (FailsWith.of_replyDecoded (codec := .scaled k kind) h).1
  | decBits => cases (FailsWith.of_replyDecoded (codec := .bitfield) h).1
  | decMode =>
    obtain ⟨-, w, hw, hmode⟩ := FailsWith.of_replyDecoded (codec := .mode) h
    exact .mode (.decMode hw) hmode
  | decode r =>
    obtain ⟨hcodec, w, hw, hmode⟩ := FailsWith.of_replyDecoded (codec := r.codec) h
    exact .mode (.decode hcodec hw) hmode
  | resolveName | resolveAddr | resolveNum => exact .lookup rfl (FailsWith.of_replyLookup h)
  | readWords => exact .lookup rfl h.of_readWords
  | writeWords a lo hi =>
    exact .lookup rfl (resolve_fail_of_writePort_fail (pairOperand_ne_fail lo hi) (FailsWith.of_replyWrite h))
  | csrReadName | csrReadAddr | csrReadNum => exact h.of_typedRead rfl
  | csrWriteName | csrWriteAddr | csrWriteNum =>
    exact .lookup rfl (resolve_fail_of_csrWrite_fail (FailsWith.of_replyWrite h))

/-- Settles O31: of the two sources of a failure, the lookup and the decode of a mode, only the lookup gives this one. -/
theorem unknownRegisterExactlyWhenTheLookupFails : Obligations.UnknownRegisterExactlyWhenTheLookupFails := by
  refine ⟨fun i s key hkey hnone => exec_of_resolve_fail s hkey (resolve_fail_of_ne_ok hnone), fun i s t key h hf => ?_⟩
  cases FailsWith.of_exec ⟨t, h, hf⟩ with
  | @lookup key' hkey he =>
    obtain rfl : key = key' := Failure.unknownRegister.inj (eq_unknownRegister_of_resolve_fail he)
    exact ⟨hkey, by simp [he], eq_of_exec_fails h hf⟩
  | mode hw hmode => cases (decodeMode_eq_fail_iff.1 hmode).2

/-- Settles O42: of the two sources of a failure, the lookup and the decode of a mode, only the decode gives this one. -/
theorem invalidModeExactlyFromModeDecodes : Obligations.InvalidModeExactlyFromModeDecodes := by
  refine ⟨fun s raw h0 h1 h2 h11 => ⟨fun lo hi hlo hhi hvalue => ?_, fun i key r _ hkey he hcodec hu => ?_⟩,
    fun i s t raw h hf => ?_⟩
  · have hw := pairOperand_eq_wordsOf hlo hhi hvalue
    have hraw : IsNoMode raw := ⟨h0, h1, h2, h11⟩
    exact ⟨(DecodesMode.decMode hw).exec_fails hraw, fun r hcodec => (DecodesMode.decode hcodec hw).exec_fails hraw⟩
  · exact (DecodesMode.typedRead hkey he hcodec hu).exec_fails ⟨h0, h1, h2, h11⟩
  · cases FailsWith.of_exec ⟨t, h, hf⟩ with
    | lookup hkey he => cases eq_unknownRegister_of_resolve_fail he
    | @mode w hdecodes hmode =>
      obtain ⟨hraw, hrecorded⟩ := decodeMode_eq_fail_iff.1 hmode
      obtain rfl : raw = rawOf w := Failure.invalidMode.inj hrecorded
      refine ⟨hraw, eq_of_exec_fails h hf, ?_⟩
      cases hdecodes with
      | decMode hw => exact .inl ⟨_, _, rfl, rawOf_toNat_of_pairOperand hw⟩
      | decode hcodec hw => exact .inr (.inl ⟨_, _, _, rfl, hcodec, rawOf_toNat_of_pairOperand hw⟩)
      | typedRead hkey he hcodec hu => exact .inr (.inr ⟨_, _, hkey, he, hcodec, by rw [hu, rawOf_wordsOf]⟩)

/-! ### Every step completes -/

/-- In canonical form the port answers every read (R30, R185). -/
theorem State.Inv.readPort_answers {s : State} (hs : s.Inv) (a : Int) : ∃ ans, readPort s a = .ok ans := by
  rcases readPort_cases s a hs with ⟨r, -, v, -, -, -, h⟩ | ⟨r, -, -, -, -, h⟩ | ⟨-, h⟩ <;> exact ⟨_, h⟩

/-- In canonical form the port answers every write (R30, R186). -/
theorem State.Inv.writePort_answers {s : State} (hs : s.Inv) (a : Int) {words : Answer WordPair}
    (hwords : ∀ f, words ≠ .fail f) : ∃ ans, writePort s a words = .ok ans := by
  rcases resolve_cases s.cfg.table (.addr a) with ⟨r, hr, he⟩ | he
  · rcases writePort_of_resolve_ok he hwords with ⟨q, h⟩ | ⟨w, h⟩
    · exact ⟨_, h⟩
    · obtain ⟨v, hv⟩ := hs.cell_of_mem hr
      exact ⟨_, h.trans (by rw [hv, Option.elim_some])⟩
  · exact ⟨.fail (.unknownRegister (.addr a)), by simp [writePort, he]⟩

/-- In canonical form every typed read is answered (R187). -/
theorem State.Inv.csrRead_answers {s : State} (hs : s.Inv) (key : RegKey) : ∃ ans, csrRead s key = .ok ans := by
  rcases csrRead_cases s key hs with ⟨r, -, v, -, -, h⟩ | ⟨-, h⟩ <;> exact ⟨_, h⟩

/-- In canonical form every typed write is answered (R188). -/
theorem State.Inv.csrWrite_answers {s : State} (hs : s.Inv) (key : RegKey) (v : Value) :
    ∃ ans, csrWrite s key v = .ok ans := by
  rcases csrWrite_cases s key v hs with ⟨r, -, w, -, -, h⟩ | ⟨r, -, q, -, -, h⟩ | ⟨r, -, f, -, -, h⟩ | ⟨-, h⟩ <;>
    exact ⟨_, h⟩

/-- A typed read that is answered completes. -/
theorem replyCsrRead_completes {s : State} {key : RegKey} (h : ∃ ans, csrRead s key = .ok ans) :
    ∃ t, replyCsrRead s key = .next t := by
  obtain ⟨ans, hans⟩ := h
  exact ⟨_, by rw [replyCsrRead, hans, Access.andThen_ok, State.replyRead_ok]⟩

/-- A write that is answered completes. -/
theorem State.replyWrite_completes {s : State} {x : Access State} (h : ∃ ans, x = .ok ans) :
    ∃ t, s.replyWrite x = .next t := by
  obtain ⟨ans, rfl⟩ := h
  cases ans <;> exact ⟨_, rfl⟩

/-- In canonical form every operation completes (R213). -/
theorem State.Inv.exec_completes {s : State} (hs : s.Inv) (i : Instr) : ∃ t, exec i s = .next t := by
  cases i with
  | readWords a =>
    obtain ⟨ans, h⟩ := hs.readPort_answers a
    exact ⟨_, exec_readWords_of_readPort h⟩
  | writeWords a lo hi => exact State.replyWrite_completes (hs.writePort_answers a (pairOperand_ne_fail lo hi))
  | csrReadName | csrReadAddr | csrReadNum => exact replyCsrRead_completes (hs.csrRead_answers _)
  | csrWriteName _ v | csrWriteAddr _ v | csrWriteNum _ v =>
    exact State.replyWrite_completes (hs.csrWrite_answers _ v)
  | _ => exact (exec_of_touchesNoStorage (by rfl) s).elim fun _ h => ⟨_, h⟩

/-- Settles O52: the cases are those of the event that comes next; taking it off the list leaves the canonical form. -/
theorem everyStepCompletes : Obligations.EveryStepCompletes := by
  intro s hs
  rcases hp : s.pending with _ | ⟨⟨c, tr⟩ | ⟨n, v⟩, rest⟩
  case nil => exact ⟨s, by simp only [step, hp]⟩
  case cons.call =>
    cases hd : decode tr with
    | error e => exact ⟨_, by simp only [step, hp, hd]; rfl⟩
    | ok i =>
      obtain ⟨u, hu⟩ := State.Inv.exec_completes (s := { s with pending := rest }) hs i
      exact ⟨u.recordResult c, by rw [stepRunsTheDecodedTransaction s c tr rest i hp hd, hu]⟩
  case cons.environment => exact ⟨_, step_environment hp⟩

end Sys2Proof.Machine
end

section
/-! PROOFS. The step with nothing to take. -/

namespace Sys2Proof.Machine

/-- Settles O58: of the branches of `step`, an empty list of pending events selects the one that waits (R241). -/
theorem blockWaitsWithNothingPending : Obligations.BlockWaitsWithNothingPending := by
  intro s hp
  simp only [step, hp]

end Sys2Proof.Machine
end
